-- ==== Sys2Proof/Word.lean ====
section
/-! DEFINITION. The data formats of the block (spec/00_scope.md R8 to R11, spec/30_encoding.md R65, R70):
signed values are mathematical integers, vectors carry their exact width, and an action is a name. -/

namespace Sys2Proof

/-- A `SignedValue`: a mathematical integer with no bound (R8). -/
abbrev SignedValue := Int

/-- One bit, such as `QM1` (R23). -/
abbrev Bit := BitVec 1

/-- A bit vector that travels with its length, which is at least 1 (R10, R74). An empty vector is no operand
(R101, R102; U13 of spec/93_implementation_defined.md), so the type has none. -/
structure Vec where
  len : Nat
  pos : 0 < len
  bits : BitVec len
  deriving DecidableEq, Repr

/-- Two bit vectors of one common length of at least 1: the fields `a`, `b` of `PDECODE` (R74, U13). -/
structure VecPair where
  len : Nat
  pos : 0 < len
  high : BitVec len
  low : BitVec len
  deriving DecidableEq, Repr

/-- What a Decide sub-step does to the accumulator (R29, R70, R140). -/
inductive Action where
  | noOp
  | add
  | subtract
  deriving DecidableEq, Repr, Inhabited

/-- `NMAX`, the largest register width of an instance: unbounded, or a positive integer (R6). -/
inductive Capacity where
  | unbounded
  | upTo (nmax : Nat) (pos : 0 < nmax)
  deriving DecidableEq, Repr

end Sys2Proof
end

