-- ==== Sys2Proof/Config.lean ====
section
/-! DEFINITION. The values the spec leaves open (spec/93_implementation_defined.md U2, U3, U4): "any value". Each
is a constant with no body, applied to the State field `draws`, so nothing can be proved of it (log 6). -/

namespace Sys2Proof

/-- The width register outside a run (R36). -/
opaque Config.freeN : Nat → Nat

/-- The accumulator outside a run, at a given width (R36). -/
opaque Config.freeA : Nat → (n : Nat) → BitVec n

/-- The multiplier register outside a run, at a given width (R36). -/
opaque Config.freeQ : Nat → (n : Nat) → BitVec n

/-- The history bit outside a run (R36). -/
opaque Config.freeQM1 : Nat → Bit

/-- The multiplicand register outside a run, at a given width (R36). -/
opaque Config.freeM : Nat → (n : Nat) → BitVec n

/-- The step index outside a run (R36). -/
opaque Config.freeI : Nat → Nat

/-- The action register outside a run (R36) and from `START` to the first `DECIDE` (R130). -/
opaque Config.freeACT : Nat → Action

/-- The accumulator copy outside a run (R36) and from `START` to the first `DECIDE` (R130). -/
opaque Config.freeAB : Nat → (n : Nat) → BitVec n

/-- The error value after reset (R39) and as read while `ERR = 0` (R33). -/
opaque Config.freeERRVAL : Nat → Int

/-- The error width after reset (R39) and as read while `ERR = 0` (R33). -/
opaque Config.freeERRWIDTH : Nat → Int

end Sys2Proof
end

