-- ==== Sys2Proof/Syntax.lean ====
section
/-! DEFINITION. The instructions: the thirteen commands of spec/30_encoding.md R72 and the four rows of the
recode map R69, and the words that encode them. One constructor per row of spec/opcode_table.json. -/

namespace Sys2Proof

/-- The instructions. The first thirteen are the commands the caller may present (R72); the last four are the
micro-operations that `DECIDE` selects from the recode pair and that no caller can issue (R69, R79). -/
inductive Instr where
  /-- `START m, q, bitSize`: begin a run (R130). `none` is an omitted `bitSize` (`bsv = 0`). -/
  | start (m q : SignedValue) (bitSize : Option Int)
  /-- `DECIDE`: the Decide sub-step (R141). -/
  | decide
  /-- `SHIFT`: the Shift sub-step (R145). -/
  | shift
  /-- `CYCLE`: one whole Booth cycle (R146). -/
  | cycle
  /-- `RESULT`: read the product of the finished run (R171). -/
  | result
  /-- `SETFLOOR f`: set the automatic-width floor (R181). -/
  | setfloor (f : Int)
  /-- `RUN m, q, bitSize`: a whole multiplication (R180). -/
  | run (m q : SignedValue) (bitSize : Option Int)
  /-- `ENCODE v, w`: integer to `w`-bit two's complement (R100). -/
  | encode (v : SignedValue) (w : Int)
  /-- `DECODE bits`: two's complement to integer (R101). -/
  | decode (bits : Vec)
  /-- `NEGATE bits`: negation at the same width, wrapping (R102). -/
  | negate (bits : Vec)
  /-- `MINWIDTH v`: the width allotted to one value (R120). -/
  | minwidth (v : SignedValue)
  /-- `SELWIDTH vs, f`: the width for a set of values with a floor (R121). -/
  | selwidth (vs : List SignedValue) (f : Int)
  /-- `PDECODE a, b`: read a register pair as one signed number (R170). -/
  | pdecode (ab : VecPair)
  /-- `SUB`, recode pair `10`: subtract the multiplicand from the accumulator (R142). -/
  | sub
  /-- `ADD`, recode pair `01`: add the multiplicand to the accumulator (R143). -/
  | add
  /-- `NOP`, recode pair `00`: the accumulator is unchanged (R144). -/
  | nop00
  /-- `NOP`, recode pair `11`: the accumulator is unchanged (R144). -/
  | nop11
  deriving DecidableEq, Repr

/-- Is it a command the caller can present (R72)? The micro-operations are not (R79). -/
def Instr.isCommand : Instr → Bool
  | .start _ _ _ | .decide | .shift | .cycle | .result | .setfloor _ | .run _ _ _ | .encode _ _
  | .decode _ | .negate _ | .minwidth _ | .selwidth _ _ | .pdecode _ => true
  | .sub | .add | .nop00 | .nop11 => false

/-- A command word: the 4-bit code and every operand field of R74. A command reads the fields its row of R72
names and ignores the others (R71). -/
structure CommandWord where
  cmd : BitVec 4
  m : SignedValue
  q : SignedValue
  bsv : Bit
  bs : Int
  f : Int
  v : SignedValue
  w : Int
  bits : Vec
  vs : List SignedValue
  ab : VecPair
  deriving DecidableEq, Repr

/-- The command word whose operand fields are all zero: integers 0, and for the vectors and the sequence, which
R74 never lets be empty, the shortest one that holds only zeros (log 11, DESIGN CHOICE). -/
def CommandWord.zero (cmd : BitVec 4) : CommandWord :=
  { cmd := cmd, m := 0, q := 0, bsv := 0, bs := 0, f := 0, v := 0, w := 0,
    bits := ⟨1, Nat.one_pos, 0⟩, vs := [0], ab := ⟨1, Nat.one_pos, 0, 0⟩ }

/-- A word of one of the block's two opcode maps: a command word of the command map (R71), or a recode pair of
the recode map (R68). The two maps are separate code spaces (the head of spec/30_encoding.md). -/
inductive Word where
  | command (c : CommandWord)
  | recode (pair : BitVec 2)
  deriving DecidableEq, Repr

end Sys2Proof
end

