-- ==== Sys2Proof/WellFormed.lean ====
section
/-! DEFINITION. Which instructions have the operands that spec/30_encoding.md R74 admits. Vector lengths are
checked by the types `Vec` and `VecPair`; what is left is that the sequence of `SELWIDTH` is not empty. -/

namespace Sys2Proof

/-- The operand fields lie in the types of R74: the sequence `vs` is non-empty. (An ill-formed `SELWIDTH` is
refused by its meaning with `EmptySequence`, R124.) -/
def Instr.wellFormed : Instr → Bool
  | .selwidth vs _ => !vs.isEmpty
  | .start _ _ _ | .decide | .shift | .cycle | .result | .setfloor _ | .run _ _ _ | .encode _ _
  | .decode _ | .negate _ | .minwidth _ | .pdecode _ | .sub | .add | .nop00 | .nop11 => true

end Sys2Proof
end

