-- ==== Sys2Proof/Decode.lean ====
section
/-! DEFINITION. Decoding and encoding by the two opcode maps: the command map of spec/30_encoding.md R71 to R74
and the recode map of R68, R69. -/

namespace Sys2Proof

/-- Why a word has no instruction: its command code is `0000`, `1110` or `1111`, which are unassigned (R73). -/
inductive DecodeError where
  | unknownCommand (code : BitVec 4)
  deriving DecidableEq, Repr

/-- The explicit `bitSize` of a command word: `bs` when `bsv = 1`, omitted when `bsv = 0` (R74). -/
def CommandWord.bitSize (c : CommandWord) : Option Int :=
  if c.bsv = 1 then some c.bs else none

/-- The command map (R72); the codes of R73 are refused by name. -/
def decodeCommand (c : CommandWord) : Except DecodeError Instr :=
  match c.cmd.toNat with
  | 0b0001 => .ok (.start c.m c.q c.bitSize)
  | 0b0010 => .ok .decide
  | 0b0011 => .ok .shift
  | 0b0100 => .ok .cycle
  | 0b0101 => .ok .result
  | 0b0110 => .ok (.setfloor c.f)
  | 0b0111 => .ok (.run c.m c.q c.bitSize)
  | 0b1000 => .ok (.encode c.v c.w)
  | 0b1001 => .ok (.decode c.bits)
  | 0b1010 => .ok (.negate c.bits)
  | 0b1011 => .ok (.minwidth c.v)
  | 0b1100 => .ok (.selwidth c.vs c.f)
  | 0b1101 => .ok (.pdecode c.ab)
  | _ => .error (.unknownCommand c.cmd)

/-- The recode map (R69): all four pairs are defined; the first digit is `Q[0]`, the second `QM1` (R68). -/
def decodeRecode (p : BitVec 2) : Instr :=
  if p = 0b10#2 then .sub
  else if p = 0b01#2 then .add
  else if p = 0b00#2 then .nop00
  else .nop11

/-- The instruction of a word of either map. -/
def decode : Word → Except DecodeError Instr
  | .command c => decodeCommand c
  | .recode p => .ok (decodeRecode p)

/-- The word of the command map with an optional `bitSize` laid out as `bsv`, `bs` (R74). -/
def CommandWord.withBitSize (c : CommandWord) : Option Int → CommandWord
  | some n => { c with bsv := 1, bs := n }
  | none => { c with bsv := 0, bs := 0 }

/-- The word of an instruction: its code and its own operand fields, every other field zero (R72, R69). -/
def encode : Instr → Word
  | .start m q b => .command (({ CommandWord.zero 0b0001#4 with m := m, q := q } : CommandWord).withBitSize b)
  | .decide => .command (.zero 0b0010#4)
  | .shift => .command (.zero 0b0011#4)
  | .cycle => .command (.zero 0b0100#4)
  | .result => .command (.zero 0b0101#4)
  | .setfloor f => .command { CommandWord.zero 0b0110#4 with f := f }
  | .run m q b => .command (({ CommandWord.zero 0b0111#4 with m := m, q := q } : CommandWord).withBitSize b)
  | .encode v w => .command { CommandWord.zero 0b1000#4 with v := v, w := w }
  | .decode bits => .command { CommandWord.zero 0b1001#4 with bits := bits }
  | .negate bits => .command { CommandWord.zero 0b1010#4 with bits := bits }
  | .minwidth v => .command { CommandWord.zero 0b1011#4 with v := v }
  | .selwidth vs f => .command { CommandWord.zero 0b1100#4 with vs := vs, f := f }
  | .pdecode ab => .command { CommandWord.zero 0b1101#4 with ab := ab }
  | .sub => .recode 0b10#2
  | .add => .recode 0b01#2
  | .nop00 => .recode 0b00#2
  | .nop11 => .recode 0b11#2

/-- The word that spec/opcode_table.json's numbering stands for, its operand fields zero. A command row has four
bits and a recode row two; so fewer than four bits is a pair of the recode map, anything else a command
(the two maps share numbers: log 11, DESIGN CHOICE). -/
def tableWord (nbits w : Nat) : Word :=
  if nbits < 4 then .recode (BitVec.ofNat 2 w) else .command (.zero (BitVec.ofNat 4 w))

/-- What the decoder reads from a table word. -/
def decodeTableWord (nbits w : Nat) : Option Instr :=
  (decode (tableWord nbits w)).toOption

end Sys2Proof
end

