-- ==== Sys2Proof/Machine/State.lean ====
section
/-! DEFINITION. The state of the block (spec/10_state.md), the reasons a step can stop, and the state after reset
(R39, R231). -/

namespace Sys2Proof.Machine

/-- `PH`, the phase (R26). -/
inductive Phase where
  /-- no run exists: after reset -/
  | idle
  /-- the next sub-step is Decide of step `I` -/
  | deciding
  /-- the next sub-step is Shift of step `I` -/
  | shifting
  /-- all `N` cycles have run -/
  | done
  /-- the last `START` raised `WidthOverflow` -/
  | fault
  deriving DecidableEq, Repr

/-- `ERR`, the error code (R32). -/
inductive ErrCode where
  | none
  | widthOverflow
  deriving DecidableEq, Repr

/-- The registers `(A, Q, QM1)` at a point in time: DOC's `RegisterState` at width `n` (R24, R35). -/
structure Triple (n : Nat) where
  A : BitVec n
  Q : BitVec n
  QM1 : Bit
  deriving DecidableEq, Repr

/-- One snapshot record of the trace output (R35); `N` is the width its vectors have. -/
structure Snapshot where
  N : Nat
  step : Nat
  before : Triple N
  action : Action
  afterArith : Triple N
  afterShift : Triple N
  deriving DecidableEq, Repr

/-- The registers of a run (R21 to R30). Every vector has the width `N`, which is the width invariant R24. -/
structure Run where
  /-- width register and cycle count (R28) -/
  N : Nat
  /-- accumulator (R21) -/
  A : BitVec N
  /-- multiplier register (R22) -/
  Q : BitVec N
  /-- history bit (R23) -/
  QM1 : Bit
  /-- multiplicand register (R25) -/
  M : BitVec N
  /-- step index (R27) -/
  I : Nat
  /-- action of the current step (R29) -/
  ACT : Action
  /-- accumulator before the arithmetic sub-step (R30) -/
  AB : BitVec N
  deriving DecidableEq, Repr

/-- The value a response carries (R72). -/
inductive Value where
  | int (v : Int)
  | bits (b : Vec)
  deriving DecidableEq, Repr

/-- The response of a command that has a meaning (R76). The fourth kind, `refused`, is the step's own outcome
`refused` (R210, log 2). -/
inductive Response where
  | ok
  | value (v : Value)
  /-- `WidthOverflow` with the offending value and the width (R201) -/
  | exception (value width : Int)
  deriving DecidableEq, Repr

/-- What the caller can do to the block: present a command (R20), or assert reset (R230). -/
inductive PortEvent where
  | command (c : CommandWord)
  | reset
  deriving DecidableEq, Repr

/-- The whole state of the block. -/
structure State where
  /-- phase (R26) -/
  PH : Phase
  /-- the registers of the run (R21 to R30) -/
  run : Run
  /-- automatic-width floor (R31) -/
  FLOOR : Int
  /-- error code (R32) -/
  ERR : ErrCode
  /-- offending value (R33) -/
  ERRVAL : Int
  /-- width it did not fit (R33) -/
  ERRWIDTH : Int
  /-- the records emitted since the run's `START`, oldest first (R35, R60) -/
  trace : List Snapshot
  /-- everything ever sent on the trace output, oldest first (R35, R135; log 14) -/
  emitted : List Snapshot
  /-- the response of the last command answered (R76; log 9) -/
  rsp : Option Response
  /-- what the caller presents, in issue order (R56; log 1) -/
  port : List PortEvent
  /-- the instance's largest width, never written (R6; log 4) -/
  NMAX : Capacity
  /-- how many free values have been taken: the model's own field (log 6) -/
  draws : Nat
  deriving DecidableEq, Repr

/-- What stops the machine for good: nothing. The block's one exception is a next state (R200, R204), every
transition is total (R152), and the block has no stuck state (log 19). -/
inductive Fault
  deriving DecidableEq, Repr

/-- Why a command has no meaning. The last four are the closed set of R211; a refused command changes no state
(R210), and stopping there is safe (log 2). -/
inductive Refusal where
  /-- raised by `exec` alone, for an instruction without a meaning (none is left); safe -/
  | notModelled (mnemonic : String)
  /-- raised by `step` on the command codes `0000`, `1110`, `1111` (R73); safe -/
  | unknownCommand
  /-- raised by `DECIDE`, `SHIFT`, `CYCLE`, `RESULT` outside their phase (R211); safe -/
  | wrongPhase
  /-- raised by `SELWIDTH` on an empty sequence (R124); safe -/
  | emptySequence
  /-- raised by `START`, `RUN` when the chosen width exceeds `NMAX` (R133); safe -/
  | widthUnsupported
  deriving DecidableEq, Repr

/-- The registers of a run at reset. The spec leaves them unspecified (R39); the model names the least width and
step index that R27 and R28 allow, and zeros (log 5, DESIGN CHOICE, unsafe). -/
def Run.reset : Run :=
  { N := 1, A := 0, Q := 0, QM1 := 0, M := 0, I := 1, ACT := .noOp, AB := 0 }

/-- The state after reset (R39, R231): `Idle`, `ERR = 0`, `FLOOR = 4`, trace empty. What R39 leaves unspecified
has the values of log 5; the model's own fields those of log 1, 4, 6 and 9. -/
def State.reset : State :=
  { PH := .idle, run := Run.reset, FLOOR := 4, ERR := .none, ERRVAL := 0, ERRWIDTH := 0, trace := [],
    emitted := [], rsp := none, port := [], NMAX := .unbounded, draws := 0 }

end Sys2Proof.Machine
end

