-- ==== Sys2Proof/Machine/Operands.lean ====
section
/-! DEFINITION. The pure function units and the operand forms: codec (spec/40_codec.md), width selector
(spec/41_width_selector.md), product (spec/43_result_decoder.md R170), width choice and capacity (R131, R133). -/

namespace Sys2Proof.Machine

/-- `v` fits `w` bits of two's complement: `ENCODE v, w` does not raise (R100, R106). -/
abbrev Fits (v w : Int) : Prop :=
  1 ≤ w ∧ -2 ^ (w - 1).toNat ≤ v ∧ v ≤ 2 ^ (w - 1).toNat - 1

/-- `bv_n(k)`: the `n`-bit vector whose unsigned value is `k mod 2^n` (R10). -/
def bv (n : Nat) (k : Int) : BitVec n := BitVec.ofInt n k

/-- `ENCODE(v, w)` (R100): the vector, or none where it raises `WidthOverflow(v, w)`. -/
def encodeValue (v w : Int) : Option Vec :=
  if h : Fits v w then some ⟨w.toNat, by have := h.1; omega, bv w.toNat v⟩ else none

/-- `DECODE(bits)` (R101), the signed value `s(bits)` of R10. -/
def decodeBits {n : Nat} (b : BitVec n) : Int :=
  if b.msb then (b.toNat : Int) - 2 ^ n else (b.toNat : Int)

/-- `NEGATE(bits)` (R102): negation at the same width, wrapping. -/
def negateBits {n : Nat} (b : BitVec n) : BitVec n := bv n (-decodeBits b)

/-- `bitlen(k)` for `k >= 1` (R10): the `L` with `2^(L-1) <= k < 2^L`. -/
def bitlen (k : Nat) : Nat := Nat.log2 k + 1

/-- `MINWIDTH(v)` (R120). -/
def minWidth (v : Int) : Int := if v = 0 then 1 else (bitlen v.natAbs : Int) + 1

/-- `SELWIDTH(vs, f)` (R121): none for the empty sequence, which is refused (R124). -/
def selWidth (vs : List Int) (f : Int) : Option Int :=
  match vs with
  | [] => none
  | v :: rest => some (max f (rest.foldl (fun acc u => max acc (minWidth u)) (minWidth v)))

/-- `PDECODE(a, b)` (R170): the pair as one signed number, `a` the high half (R53). -/
def productOf {n : Nat} (a b : BitVec n) : Int := decodeBits (a ++ b)

/-- The width choice of `START` (R131): an explicit `bitSize` as it is, else the automatic width,
which is `SELWIDTH([m, q], FLOOR)` (`selWidth_pair` in Laws). -/
def chooseWidth (m q : Int) (bitSize : Option Int) (floor : Int) : Int :=
  match bitSize with
  | some n => n
  | none => max floor (max (minWidth m) (minWidth q))

/-- `n > NMAX` (R133). -/
def exceedsCapacity (nmax : Capacity) (n : Int) : Bool :=
  match nmax with
  | .unbounded => false
  | .upTo k _ => decide ((k : Int) < n)

end Sys2Proof.Machine
end

