-- ==== Sys2Proof/Machine/Flags.lean ====
section
/-! DEFINITION. The block's only condition is the history bit `QM1`: with `Q[0]` it selects the action (spec/10_state.md
R23, spec/42_booth_stepper.md R140). There are no carry, overflow or zero flags (R105). Here are the recode, the
two sub-steps on the register triple, and the history of a run they give. -/

namespace Sys2Proof.Machine

/-- The recode pair `Q[0] ‖ QM1` (R68). -/
def Triple.pair {n : Nat} (t : Triple n) : BitVec 2 := t.Q.extractLsb' 0 1 ++ t.QM1

/-- The action of a recode pair (R140). -/
def recode (p : BitVec 2) : Action :=
  if p = 0b10#2 then .subtract
  else if p = 0b01#2 then .add
  else .noOp

/-- What an action makes of the accumulator `a` with the multiplicand register `m`, modulo `2^n` (R142 to R144). -/
def applyAction {n : Nat} (act : Action) (a m : BitVec n) : BitVec n :=
  match act with
  | .subtract => bv n (a.toNat + (negateBits m).toNat)
  | .add => bv n (a.toNat + m.toNat)
  | .noOp => a

/-- The Decide sub-step on the registers: only `A` can change (R141). -/
def Triple.decided {n : Nat} (m : BitVec n) (t : Triple n) : Triple n :=
  { t with A := applyAction (recode t.pair) t.A m }

/-- The Shift sub-step on the registers: one arithmetic right shift of `A ‖ Q ‖ QM1`, all three at once (R145, R66). -/
def Triple.shifted {n : Nat} (t : Triple n) : Triple n :=
  let shiftedT := (t.A ++ t.Q ++ t.QM1).sshiftRight 1
  { A := shiftedT.extractLsb' (n + 1) n, Q := shiftedT.extractLsb' 1 n, QM1 := shiftedT.extractLsb' 0 1 }

end Sys2Proof.Machine
end

