-- ==== Sys2Proof/Machine/Ops.lean ====
section
/-! DEFINITION. The operations over the state that the meanings share: answering, taking the exception
`WidthOverflow` (spec/60_exceptions.md R204), reset (spec/70_reset_and_hazards.md R230), beginning a run (R134), the two
sub-steps of a cycle (R141, R145), and fetching what the caller presents (R56). -/

namespace Sys2Proof.Machine

/-- The block answers a command (R76). -/
def State.answer (s : State) (r : Response) : State := { s with rsp := some r }

/-- The registers of a run where no run exists: each holds any value (R36; free values, log 6). -/
def freeRun (k : Nat) : Run :=
  let n := Config.freeN k
  { N := n, A := Config.freeA k n, Q := Config.freeQ k n, QM1 := Config.freeQM1 k, M := Config.freeM k n,
    I := Config.freeI k, ACT := Config.freeACT k, AB := Config.freeAB k n }

/-- `enter_fault(v, w)`: taking the exception `WidthOverflow` (R204). The registers of the run become any value. -/
def State.enterFault (s : State) (v w : Int) : State :=
  { s with PH := .fault, ERR := .widthOverflow, ERRVAL := v, ERRWIDTH := w, trace := [],
           run := freeRun s.draws, draws := s.draws + 1 }

/-- Reset while the block works (R230, R231, R39). What R39 leaves unspecified becomes any value; what is not
the block's own state (the caller's further events, what was already sent, the instance's `NMAX`) stays. -/
def State.resetInput (s : State) : State :=
  { State.reset with
    run := freeRun s.draws, ERRVAL := Config.freeERRVAL s.draws, ERRWIDTH := Config.freeERRWIDTH s.draws,
    emitted := s.emitted, port := s.port, NMAX := s.NMAX, draws := s.draws + 1 }

/-- The initialisation of `START` (part 4 of R130, R134) at width `n`. `ACT` and `AB` are unspecified until the first
`DECIDE` (R130; free values, log 6). -/
def State.beginRun (s : State) (m q : Int) (n : Nat) : State :=
  { s with
    PH := .deciding, ERR := .none, trace := [], draws := s.draws + 1,
    run := { N := n, A := 0, Q := bv n q, QM1 := 0, M := bv n m, I := 1,
             ACT := Config.freeACT s.draws, AB := Config.freeAB s.draws n } }

/-- What becomes of a `START` (R130), before it is answered. -/
inductive Started where
  /-- refused, with no state change (part 2) -/
  | refused (r : Refusal)
  /-- raised `WidthOverflow(v, w)` and entered the fault state (part 3) -/
  | raised (v w : Int) (s : State)
  /-- the run has begun (part 4) -/
  | began (s : State)

/-- Width choice, capacity, validation, initialisation, in this order (R130, R203). -/
def State.start (s : State) (m q : Int) (bitSize : Option Int) : Started :=
  let n := chooseWidth m q bitSize s.FLOOR
  if exceedsCapacity s.NMAX n then .refused .widthUnsupported
  else if ¬ Fits m n then .raised m n (s.enterFault m n)
  else if ¬ Fits q n then .raised q n (s.enterFault q n)
  else .began (s.beginRun m q n.toNat)

/-- The registers `(A, Q, QM1)` of the run. -/
def Run.triple (r : Run) : Triple r.N := { A := r.A, Q := r.Q, QM1 := r.QM1 }

/-- The micro-operation of an action on the accumulator, all else unchanged (R142 to R144). -/
def State.microOp (s : State) (act : Action) : State :=
  { s with run := { s.run with A := applyAction act s.run.A s.run.M } }

/-- The Decide sub-step (R141). -/
def State.decideStep (s : State) : State :=
  let act := recode s.run.triple.pair
  { s with
    PH := .shifting
    run := { s.run with AB := s.run.A, ACT := act, A := applyAction act s.run.A s.run.M } }

/-- The record a Shift sub-step emits (R145, R35). -/
def Run.snapshot (r : Run) : Snapshot :=
  { N := r.N, step := r.I, before := { r.triple with A := r.AB }, action := r.ACT,
    afterArith := r.triple, afterShift := r.triple.shifted }

/-- Sending one record on the trace output (R35). -/
def State.emit (s : State) (r : Snapshot) : State :=
  { s with trace := s.trace ++ [r], emitted := s.emitted ++ [r] }

/-- The Shift sub-step (R145): the snapshot, the three registers at once, the advance of `(PH, I)`. -/
def State.shiftStep (s : State) : State :=
  let r := s.run
  let t := r.triple.shifted
  let last := r.I = r.N
  { s.emit r.snapshot with
    PH := if last then .done else .deciding
    run := { r with A := t.A, Q := t.Q, QM1 := t.QM1, I := if last then r.I else r.I + 1 } }

/-- One whole Booth cycle (R146). -/
def State.cycleStep (s : State) : State := s.decideStep.shiftStep

/-- A number of cycles, one after another (R180). -/
def State.cycleSteps : Nat → State → State
  | 0, s => s
  | k + 1, s => s.cycleStep.cycleSteps k

/-- What the block takes from the command port next. -/
inductive Fetched where
  /-- nothing is presented: the block waits (R231) -/
  | nothing
  /-- reset, and the state with it taken off the port -/
  | reset (s : State)
  /-- a command of that instruction, and the state with it taken off the port -/
  | command (i : Instr) (s : State)
  /-- a command word with no instruction (R73) -/
  | unknown

/-- Taking the caller's next event, in issue order (R56). -/
def State.fetch (s : State) : Fetched :=
  match s.port with
  | [] => .nothing
  | .reset :: rest => .reset { s with port := rest }
  | .command c :: rest =>
    match decodeCommand c with
    | .error _ => .unknown
    | .ok i => .command i { s with port := rest }

end Sys2Proof.Machine
end

