-- ==== Sys2Proof/Machine/Codec.lean ====
section
/-! DEFINITION. The codec's commands (spec/40_codec.md): legal in every phase, they read no register and write none;
only the answer changes (R184). -/

namespace Sys2Proof.Machine

/-- `ENCODE v, w` (R100, R106). A raise only answers: it does not enter `Fault` and writes no `ERR` (R184). -/
def execEncode (v w : Int) (s : State) : Host.Outcome State Fault Refusal :=
  match encodeValue v w with
  | some b => .next (s.answer (.value (.bits b)))
  | none => .next (s.answer (.exception v w))

/-- `DECODE bits` (R101). -/
def execDecode (b : Vec) (s : State) : Host.Outcome State Fault Refusal :=
  .next (s.answer (.value (.int (decodeBits b.bits))))

/-- `NEGATE bits` (R102). -/
def execNegate (b : Vec) (s : State) : Host.Outcome State Fault Refusal :=
  .next (s.answer (.value (.bits { b with bits := negateBits b.bits })))

end Sys2Proof.Machine
end

