-- ==== Sys2Proof/Machine/MicroOps.lean ====
section
/-! DEFINITION. The micro-operations of the recode map (spec/30_encoding.md R69): what each does to the accumulator.
`DECIDE` runs them on the pair it reads (R141); no caller can issue them (R79), so they have no phase of their own
and give no answer (log 10). -/

namespace Sys2Proof.Machine

/-- `SUB`, pair `10` (R142). -/
def execSub (s : State) : Host.Outcome State Fault Refusal := .next (s.microOp .subtract)

/-- `ADD`, pair `01` (R143). -/
def execAdd (s : State) : Host.Outcome State Fault Refusal := .next (s.microOp .add)

/-- `NOP`, pair `00` (R144). -/
def execNop00 (s : State) : Host.Outcome State Fault Refusal := .next (s.microOp .noOp)

/-- `NOP`, pair `11` (R144). -/
def execNop11 (s : State) : Host.Outcome State Fault Refusal := .next (s.microOp .noOp)

end Sys2Proof.Machine
end

