-- ==== Sys2Proof/Machine/ResultDecoder.lean ====
section
/-! DEFINITION. The result decoder's commands (spec/43_result_decoder.md). -/

namespace Sys2Proof.Machine

/-- `PDECODE a, b` (R170): legal in every phase. -/
def execPdecode (ab : VecPair) (s : State) : Host.Outcome State Fault Refusal :=
  .next (s.answer (.value (.int (productOf ab.high ab.low))))

/-- The product held by the registers (R67). -/
def State.product (s : State) : Int := productOf s.run.A s.run.Q

/-- `RESULT` (R171): legal only in `Done`; it writes no register and may be repeated. -/
def execResult (s : State) : Host.Outcome State Fault Refusal :=
  if s.PH = .done then .next (s.answer (.value (.int s.product))) else .refused .wrongPhase

end Sys2Proof.Machine
end

