-- ==== Sys2Proof/Machine/RunInterface.lean ====
section
/-! DEFINITION. The run interface (spec/44_run_interface.md). -/

namespace Sys2Proof.Machine

/-- `RUN m, q, bitSize` (R180, R79): `START`, then `N` cycles, then the product, as one atomic transition. -/
def execRun (m q : Int) (bitSize : Option Int) (s : State) : Host.Outcome State Fault Refusal :=
  match s.start m q bitSize with
  | .refused r => .refused r
  | .raised v w t => .next (t.answer (.exception v w))
  | .began t =>
    let u := t.cycleSteps t.run.N
    .next (u.answer (.value (.int u.product)))

/-- `SETFLOOR f` (R181): legal in every phase, any integer. -/
def execSetfloor (f : Int) (s : State) : Host.Outcome State Fault Refusal :=
  .next ({ s with FLOOR := f }.answer .ok)

end Sys2Proof.Machine
end

