-- ==== Sys2Proof/Machine/Selector.lean ====
section
/-! DEFINITION. The width selector's commands (spec/41_width_selector.md): legal in every phase, they read no register
and write none; only the answer changes (R184). -/

namespace Sys2Proof.Machine

/-- `MINWIDTH v` (R120). -/
def execMinwidth (v : Int) (s : State) : Host.Outcome State Fault Refusal :=
  .next (s.answer (.value (.int (minWidth v))))

/-- `SELWIDTH vs, f` (R121); the empty sequence is refused (R124). -/
def execSelwidth (vs : List Int) (f : Int) (s : State) : Host.Outcome State Fault Refusal :=
  match selWidth vs f with
  | some w => .next (s.answer (.value (.int w)))
  | none => .refused .emptySequence

end Sys2Proof.Machine
end

