-- ==== Sys2Proof/Machine/Stepper.lean ====
section
/-! DEFINITION. The stepper's commands (spec/42_booth_stepper.md). -/

namespace Sys2Proof.Machine

/-- `START m, q, bitSize` (R130 to R135): legal in every phase. -/
def execStart (m q : Int) (bitSize : Option Int) (s : State) : Host.Outcome State Fault Refusal :=
  match s.start m q bitSize with
  | .refused r => .refused r
  | .raised v w t => .next (t.answer (.exception v w))
  | .began t => .next (t.answer .ok)

/-- `DECIDE` (R141): legal only in `Deciding` (R211). -/
def execDecide (s : State) : Host.Outcome State Fault Refusal :=
  if s.PH = .deciding then .next (s.decideStep.answer .ok) else .refused .wrongPhase

/-- `SHIFT` (R145): legal only in `Shifting` (R211). -/
def execShift (s : State) : Host.Outcome State Fault Refusal :=
  if s.PH = .shifting then .next (s.shiftStep.answer .ok) else .refused .wrongPhase

/-- `CYCLE` (R146): legal only in `Deciding` (R211); one atomic transition (R55). -/
def execCycle (s : State) : Host.Outcome State Fault Refusal :=
  if s.PH = .deciding then .next (s.cycleStep.answer .ok) else .refused .wrongPhase

end Sys2Proof.Machine
end

