-- ==== Sys2Proof/Machine/Dispatch.lean ====
section
/-! DEFINITION. The meaning of each instruction, one arm per constructor. -/

namespace Sys2Proof.Machine

/-- What an instruction does to the state. -/
def exec (i : Instr) (s : State) : Host.Outcome State Fault Refusal :=
  match i with
  | .start m q b => Sys2Proof.Machine.execStart m q b s
  | .decide => Sys2Proof.Machine.execDecide s
  | .shift => Sys2Proof.Machine.execShift s
  | .cycle => Sys2Proof.Machine.execCycle s
  | .result => Sys2Proof.Machine.execResult s
  | .setfloor f => Sys2Proof.Machine.execSetfloor f s
  | .run m q b => Sys2Proof.Machine.execRun m q b s
  | .encode v w => Sys2Proof.Machine.execEncode v w s
  | .decode bits => Sys2Proof.Machine.execDecode bits s
  | .negate bits => Sys2Proof.Machine.execNegate bits s
  | .minwidth v => Sys2Proof.Machine.execMinwidth v s
  | .selwidth vs f => Sys2Proof.Machine.execSelwidth vs f s
  | .pdecode ab => Sys2Proof.Machine.execPdecode ab s
  | .sub => Sys2Proof.Machine.execSub s
  | .add => Sys2Proof.Machine.execAdd s
  | .nop00 => Sys2Proof.Machine.execNop00 s
  | .nop11 => Sys2Proof.Machine.execNop11 s

end Sys2Proof.Machine
end

