-- ==== Sys2Proof/Machine/Step.lean ====
section
/-! DEFINITION. One step: the block takes the caller's next event and acts on it (spec/20_memory.md R55, R56). -/

namespace Sys2Proof.Machine

/-- One step: wait when nothing is presented (R231), reset (R230), run a command, or refuse an unknown one (R73). -/
def step (s : State) : Host.Outcome State Fault Refusal :=
  match s.fetch with
  | .nothing => .next s
  | .reset t => .next t.resetInput
  | .command i t => exec i t
  | .unknown => .refused .unknownCommand

/-- The state with the recode pair where the next `DECIDE` reads it (R58, R68). -/
def State.withPair (s : State) (p : BitVec 2) : State :=
  { s with
    PH := .deciding
    run := { s.run with Q := (s.run.Q >>> 1 <<< 1) ||| (p.extractLsb' 1 1).setWidth s.run.N,
                        QM1 := p.extractLsb' 0 1 } }

/-- The state with a table word where the next step takes it: a command word is presented at the command port
(R51); a recode pair is put into `Q[0]`, `QM1` and `DECIDE`, which reads it, is presented (R58; log 11). -/
def State.withFetchWord (s : State) (nbits w : Nat) : State :=
  match tableWord nbits w with
  | .command c => { s with port := .command c :: s.port }
  | .recode p => { s.withPair p with port := .command (.zero 0b0010#4) :: s.port }

end Sys2Proof.Machine
end

