-- ==== Sys2Proof/Machine/Views.lean ====
section
/-! DEFINITION. What the outside sees of the block without changing it: the status view and the data registers
(spec/10_state.md R34, R36), and the numeric codes and record layout of spec/30_encoding.md R70, R75 to R77. -/

namespace Sys2Proof.Machine

/-- A run exists in this phase (R26, R36). -/
def Phase.running : Phase → Bool
  | .deciding | .shifting | .done => true
  | .idle | .fault => false

/-- The tuple `STATUS` (R34). -/
structure Status where
  PH : Phase
  I : Nat
  N : Nat
  ERR : ErrCode
  ERRVAL : Int
  ERRWIDTH : Int
  FLOOR : Int
  deriving DecidableEq, Repr

/-- The data registers the caller can read, at the width they have (R34). -/
structure DataView where
  N : Nat
  regs : Triple N
  deriving DecidableEq, Repr

/-- Reading `STATUS`. `I` and `N` mean something only while a run exists (R34), `ERRVAL` and `ERRWIDTH` only
while `ERR = 1` (R33); else a read gives any value (log 7, log 17). -/
def State.readStatus (s : State) : Status :=
  { PH := s.PH
    I := if s.PH.running then s.run.I else Config.freeI s.draws
    N := if s.PH.running then s.run.N else Config.freeN s.draws
    ERR := s.ERR
    ERRVAL := if s.ERR = .widthOverflow then s.ERRVAL else Config.freeERRVAL s.draws
    ERRWIDTH := if s.ERR = .widthOverflow then s.ERRWIDTH else Config.freeERRWIDTH s.draws
    FLOOR := s.FLOOR }

/-- Reading `A`, `Q`, `QM1`; where no run exists a read gives any value (R36; log 17). -/
def State.readData (s : State) : DataView :=
  if s.PH.running then { N := s.run.N, regs := s.run.triple }
  else { N := (freeRun s.draws).N, regs := (freeRun s.draws).triple }

/-- The code of an action: the code `11` is never produced (R70). -/
def actionCode : Action → BitVec 2
  | .noOp => 0b00
  | .add => 0b01
  | .subtract => 0b10

/-- The code of a phase: `101`, `110`, `111` never occur (R77). -/
def Phase.code : Phase → BitVec 3
  | .idle => 0b000
  | .deciding => 0b001
  | .shifting => 0b010
  | .done => 0b011
  | .fault => 0b100

/-- The error code, one bit (R32, R34). -/
def ErrCode.code : ErrCode → BitVec 1
  | .none => 0
  | .widthOverflow => 1

/-- The kind code of a response (R76). -/
def Response.kindCode : Response → BitVec 2
  | .ok => 0b00
  | .value _ => 0b01
  | .exception _ _ => 0b10

/-- The kind code of what a command answers: `11` where it is refused (R76). -/
def answerKind : Host.Outcome State Fault Refusal → Option (BitVec 2)
  | .next s => s.rsp.map Response.kindCode
  | .fault _ => none
  | .refused _ => some 0b11

/-- The registers of a triple in the order `A`, `Q`, `QM1` (R66, R75). -/
def Triple.concat {n : Nat} (t : Triple n) : BitVec (n + n + 1) := t.A ++ t.Q ++ t.QM1

/-- The record on the wire after its `step` field, which is a natural number with no width: most significant field
first (R75; log 16). -/
def Snapshot.wire (r : Snapshot) : Nat × BitVec (r.N + r.N + 1 + 2 + (r.N + r.N + 1) + (r.N + r.N + 1)) :=
  (r.step, r.before.concat ++ actionCode r.action ++ r.afterArith.concat ++ r.afterShift.concat)

end Sys2Proof.Machine
end

