-- ==== Sys2Proof/Safety.lean ====
section
/-! DEFINITION. What the claims speak of: sequences of instructions, Booth's algorithm as a history of registers (spec/42_booth_stepper.md
R140 to R146, R151), and the invariant of the block. -/

namespace Sys2Proof.Machine

/-- Instructions one after another, each on the state the one before it left (R56); the first fault or refusal
ends the sequence (R210). -/
def execAll : List Instr → State → Host.Outcome State Fault Refusal
  | [], s => .next s
  | i :: rest, s =>
    match exec i s with
    | .next t => execAll rest t
    | .fault r => .fault r
    | .refused r => .refused r

/-- The registers after `k` cycles from the registers `t0`, with multiplicand register `m` (R146). -/
def boothRegs {n : Nat} (m : BitVec n) (t0 : Triple n) : Nat → Triple n
  | 0 => t0
  | k + 1 => ((boothRegs m t0 k).decided m).shifted

/-- The record of cycle `k + 1` of a run from the registers `t0` (R35, R145). -/
def boothRecord {n : Nat} (m : BitVec n) (t0 : Triple n) (k : Nat) : Snapshot :=
  { N := n, step := k + 1, before := boothRegs m t0 k, action := recode (boothRegs m t0 k).pair,
    afterArith := (boothRegs m t0 k).decided m, afterShift := boothRegs m t0 (k + 1) }

/-- The records of the first `k` cycles, in step order (R60). -/
def boothTrace {n : Nat} (m : BitVec n) (t0 : Triple n) (k : Nat) : List Snapshot :=
  (List.range k).map (boothRecord m t0)

/-- The registers a run starts from: `A = 0`, `QM1 = 0`, the multiplier in `Q` (R134). -/
def initialRegs {n : Nat} (q : BitVec n) : Triple n := { A := 0, Q := q, QM1 := 0 }

/-- While a run exists: its width is legal, `I` lies in `1 .. N`, and registers and trace are exactly those of the
cycles done so far, from some multiplier `q` (R24, R27, R28, R151). -/
def State.RunInv (s : State) : Prop :=
  1 ≤ s.run.N ∧ exceedsCapacity s.NMAX s.run.N = false ∧ 1 ≤ s.run.I ∧ s.run.I ≤ s.run.N ∧
  ∃ q : BitVec s.run.N,
    (s.PH = .deciding →
      s.run.triple = boothRegs s.run.M (initialRegs q) (s.run.I - 1) ∧
      s.trace = boothTrace s.run.M (initialRegs q) (s.run.I - 1)) ∧
    (s.PH = .shifting →
      s.run.triple = (boothRegs s.run.M (initialRegs q) (s.run.I - 1)).decided s.run.M ∧
      s.run.AB = (boothRegs s.run.M (initialRegs q) (s.run.I - 1)).A ∧
      s.run.ACT = recode (boothRegs s.run.M (initialRegs q) (s.run.I - 1)).pair ∧
      s.trace = boothTrace s.run.M (initialRegs q) (s.run.I - 1)) ∧
    (s.PH = .done →
      s.run.I = s.run.N ∧
      s.run.triple = boothRegs s.run.M (initialRegs q) s.run.N ∧
      s.trace = boothTrace s.run.M (initialRegs q) s.run.N)

/-- The invariant of the block: `ERR = 1` exactly in phase `Fault`, with a context that is a real overflow (R33,
R205); no trace without a run (R36); the current trace is the end of what was sent (R35); `RunInv`. -/
def State.Inv (s : State) : Prop :=
  (s.ERR = .widthOverflow ↔ s.PH = .fault) ∧
  (s.PH = .fault → ¬ Fits s.ERRVAL s.ERRWIDTH) ∧
  (s.PH.running = false → s.trace = []) ∧
  s.trace <:+ s.emitted ∧
  (s.PH.running = true → s.RunInv)

end Sys2Proof.Machine
end

