-- ==== Sys2Proof/Certificates/Slice0/Obligations.lean ====
section
/-! DEFINITION. The statements about the block, from the numbered rules of spec/. Values the spec leaves open appear only
under an existential or as fields nothing is said of; the model's own field `draws` is always under one. -/

open Sys2Proof Sys2Proof.Machine

/-! ## Encoding -/

/-- Words of the command map and of the recode map, one for every code, written out from R72, R74 and R69, decode to the
instructions they stand for (most are the command words of the programs in spec/95_test_vectors.md). -/
def Obligations.WordsOfTheTablesDecode : Prop :=
  decode (.command { CommandWord.zero 0b0001#4 with m := 15, q := -3, bsv := 1, bs := 5 }) =
      .ok (.start 15 (-3) (some 5)) ∧
  decode (.command { CommandWord.zero 0b0001#4 with m := 2, q := 3, bsv := 0, bs := 9 }) = .ok (.start 2 3 none) ∧
  decode (.command (.zero 0b0010#4)) = .ok .decide ∧
  decode (.command (.zero 0b0011#4)) = .ok .shift ∧
  decode (.command (.zero 0b0100#4)) = .ok .cycle ∧
  decode (.command (.zero 0b0101#4)) = .ok .result ∧
  decode (.command { CommandWord.zero 0b0110#4 with f := 8 }) = .ok (.setfloor 8) ∧
  decode (.command { CommandWord.zero 0b0111#4 with m := -8, q := 1, bsv := 1, bs := 4 }) =
      .ok (.run (-8) 1 (some 4)) ∧
  decode (.command { CommandWord.zero 0b1000#4 with v := -8, w := 4 }) = .ok (.encode (-8) 4) ∧
  decode (.command { CommandWord.zero 0b1001#4 with bits := ⟨5, by decide, 0b11101⟩ }) =
      .ok (.decode ⟨5, by decide, 0b11101⟩) ∧
  decode (.command { CommandWord.zero 0b1010#4 with bits := ⟨4, by decide, 0b1000⟩ }) =
      .ok (.negate ⟨4, by decide, 0b1000⟩) ∧
  decode (.command { CommandWord.zero 0b1011#4 with v := 7 }) = .ok (.minwidth 7) ∧
  decode (.command { CommandWord.zero 0b1100#4 with vs := [15, -3], f := 4 }) = .ok (.selwidth [15, -3] 4) ∧
  decode (.command { CommandWord.zero 0b1101#4 with ab := ⟨5, by decide, 0b11110, 0b10011⟩ }) =
      .ok (.pdecode ⟨5, by decide, 0b11110, 0b10011⟩) ∧
  decode (.recode 0b10#2) = .ok .sub ∧ decode (.recode 0b01#2) = .ok .add ∧
  decode (.recode 0b00#2) = .ok .nop00 ∧ decode (.recode 0b11#2) = .ok .nop11

/-- Decode and encode agree: the word of an instruction decodes to it with every operand at every value, and a word that
decodes to an instruction is of the map, and has the code or pair, of that instruction's word (R69, R72, R74). -/
def Obligations.DecodeOfEncodeIsTheInstruction : Prop :=
  (∀ i : Instr, decode (encode i) = .ok i) ∧
  (∀ (w : Word) (i : Instr), decode w = .ok i →
    match w, encode i with
    | .command c, .command d => c.cmd = d.cmd
    | .recode p, .recode r => p = r
    | .command _, .recode _ => False
    | .recode _, .command _ => False)

/-- A command reads the fields its row of R72 names and ignores the others (R71): words of one code that agree on the
named fields decode alike. `bs` is read only when `bsv = 1` (R74). -/
def Obligations.UnnamedOperandFieldsAreIgnored : Prop :=
  ∀ c d : CommandWord, c.cmd = d.cmd →
    (c.cmd = 0b0001#4 ∨ c.cmd = 0b0111#4 → c.m = d.m ∧ c.q = d.q ∧ c.bsv = d.bsv ∧ (c.bsv = 1 → c.bs = d.bs)) →
    (c.cmd = 0b0110#4 → c.f = d.f) →
    (c.cmd = 0b1000#4 → c.v = d.v ∧ c.w = d.w) →
    (c.cmd = 0b1001#4 ∨ c.cmd = 0b1010#4 → c.bits = d.bits) →
    (c.cmd = 0b1011#4 → c.v = d.v) →
    (c.cmd = 0b1100#4 → c.vs = d.vs ∧ c.f = d.f) →
    (c.cmd = 0b1101#4 → c.ab = d.ab) →
    decode (.command c) = decode (.command d)

/-- The codes `0000`, `1110`, `1111` are refused with `UnknownCommand`, whatever the operand fields (R73); every other
code is a command. -/
def Obligations.UnassignedCodesAreRefused : Prop :=
  (∀ (s : State) (c : CommandWord) (rest : List PortEvent), s.port = .command c :: rest →
    (c.cmd = 0b0000#4 ∨ c.cmd = 0b1110#4 ∨ c.cmd = 0b1111#4) → step s = .refused .unknownCommand) ∧
  (∀ c : CommandWord, ¬ (c.cmd = 0b0000#4 ∨ c.cmd = 0b1110#4 ∨ c.cmd = 0b1111#4) →
    ∃ i, decode (.command c) = .ok i ∧ i.isCommand = true)

/-- The codes of the actions (R70), of the phases (R77) and of the error (R32), that the codes R70 and R77 exclude never
occur, and that an action's code is its recode pair for `Add` and `Subtract` and `00` for both pairs of `NoOp`. -/
def Obligations.ActionAndPhaseCodes : Prop :=
  actionCode .noOp = 0b00#2 ∧ actionCode .add = 0b01#2 ∧ actionCode .subtract = 0b10#2 ∧
  (∀ a, actionCode a ≠ 0b11#2) ∧
  actionCode (recode 0b10#2) = 0b10#2 ∧ actionCode (recode 0b01#2) = 0b01#2 ∧
  actionCode (recode 0b00#2) = 0b00#2 ∧ actionCode (recode 0b11#2) = 0b00#2 ∧
  Phase.code .idle = 0b000#3 ∧ Phase.code .deciding = 0b001#3 ∧ Phase.code .shifting = 0b010#3 ∧
  Phase.code .done = 0b011#3 ∧ Phase.code .fault = 0b100#3 ∧
  (∀ p : Phase, p.code ≠ 0b101#3 ∧ p.code ≠ 0b110#3 ∧ p.code ≠ 0b111#3) ∧
  ErrCode.code .none = 0#1 ∧ ErrCode.code .widthOverflow = 1#1

/-- The layout of a snapshot record after its step number, least significant field last (R75): each field stands where
the order of R75 puts it. -/
def Obligations.SnapshotFieldsOnTheWire : Prop :=
  ∀ r : Snapshot,
    r.wire.1 = r.step ∧
    r.wire.2.extractLsb' 0 1 = r.afterShift.QM1 ∧
    r.wire.2.extractLsb' 1 r.N = r.afterShift.Q ∧
    r.wire.2.extractLsb' (r.N + 1) r.N = r.afterShift.A ∧
    r.wire.2.extractLsb' (2 * r.N + 1) 1 = r.afterArith.QM1 ∧
    r.wire.2.extractLsb' (2 * r.N + 2) r.N = r.afterArith.Q ∧
    r.wire.2.extractLsb' (3 * r.N + 2) r.N = r.afterArith.A ∧
    r.wire.2.extractLsb' (4 * r.N + 2) 2 = actionCode r.action ∧
    r.wire.2.extractLsb' (4 * r.N + 4) 1 = r.before.QM1 ∧
    r.wire.2.extractLsb' (4 * r.N + 5) r.N = r.before.Q ∧
    r.wire.2.extractLsb' (5 * r.N + 5) r.N = r.before.A

/-! ## The step -/

/-- When the word presented decodes to an instruction, the step is `exec` of it on the state with that word taken off
the command port, and nothing else (R55, R56). -/
def Obligations.StepRunsTheDecodedCommand : Prop :=
  ∀ (s : State) (c : CommandWord) (rest : List PortEvent) (i : Instr), s.port = .command c :: rest →
    decode (.command c) = .ok i → step s = exec i { s with port := rest }

/-- With nothing presented the block waits: nothing changes (R20, R231). -/
def Obligations.BlockWaitsWhenNothingIsPresented : Prop :=
  ∀ s : State, s.port = [] → step s = .next s

/-- Reset, in any phase, leaves the stated values, whatever the registers R39 leaves unspecified hold; what was already
sent stays sent and what the caller presents next stays presented (R230, R231). The last two are the model's reading of R135
and R230 (log 14, log 22). -/
def Obligations.ResetInAnyPhase : Prop :=
  ∀ (s : State) (rest : List PortEvent), s.port = .reset :: rest →
    ∃ t, step s = .next t ∧ t.PH = .idle ∧ t.ERR = .none ∧ t.FLOOR = 4 ∧ t.trace = [] ∧
      t.emitted = s.emitted ∧ t.port = rest ∧ t.NMAX = s.NMAX

/-- The state the model starts in has the values the spec states for reset (R39, R231). -/
def Obligations.ResetStateHasTheStatedValues : Prop :=
  State.reset.PH = .idle ∧ State.reset.ERR = .none ∧ State.reset.FLOOR = 4 ∧ State.reset.trace = []

/-! ## Codec -/

/-- `ENCODE v, w` (R100, R106): the `w`-bit pattern, `v` or `2^w + v` as an unsigned number, when `v` lies in the range
of `w` bits; `WidthOverflow(v, w)` otherwise, for every `v` when `w < 1`. Only the answer changes. -/
def Obligations.EncodeAnswersThePatternOrRaises : Prop :=
  ∀ (v w : Int) (s : State),
    (1 ≤ w ∧ -2 ^ (w - 1).toNat ≤ v ∧ v ≤ 2 ^ (w - 1).toNat - 1 →
      ∃ b : Vec, exec (.encode v w) s = .next { s with rsp := some (.value (.bits b)) } ∧ (b.len : Int) = w ∧
        (b.bits.toNat : Int) = if 0 ≤ v then v else 2 ^ w.toNat + v) ∧
    (¬ (1 ≤ w ∧ -2 ^ (w - 1).toNat ≤ v ∧ v ≤ 2 ^ (w - 1).toNat - 1) →
      exec (.encode v w) s = .next { s with rsp := some (.exception v w) })

/-- `DECODE bits` (R101): the unsigned value, less `2^n` when the sign bit is 1; never fails; the value lies in the
range of `n` bits. Only the answer changes. -/
def Obligations.DecodeAnswersTheSignedValue : Prop :=
  ∀ (b : Vec) (s : State), ∃ v : Int,
    exec (.decode b) s = .next { s with rsp := some (.value (.int v)) } ∧
    v = (if b.bits.getLsbD (b.len - 1) then (b.bits.toNat : Int) - 2 ^ b.len else (b.bits.toNat : Int)) ∧
    -2 ^ (b.len - 1) ≤ v ∧ v ≤ 2 ^ (b.len - 1) - 1

/-- `NEGATE bits` (R102): `2^n - u(bits)` modulo `2^n`, which is minus the value except for the most negative vector,
which negates to itself; never raises. Only the answer changes. -/
def Obligations.NegateAnswersTheWrappedNegation : Prop :=
  ∀ (b : Vec) (s : State), ∃ c : BitVec b.len,
    exec (.negate b) s = .next { s with rsp := some (.value (.bits { b with bits := c })) } ∧
    c.toNat = (2 ^ b.len - b.bits.toNat) % 2 ^ b.len ∧
    (decodeBits b.bits ≠ -2 ^ (b.len - 1) → decodeBits c = -decodeBits b.bits) ∧
    (decodeBits b.bits = -2 ^ (b.len - 1) → c = b.bits) ∧
    negateBits c = b.bits

/-- Both round trips of the codec, as commands (R103, R104): what `ENCODE` answers for `v`, `DECODE` answers `v` for; and
what `DECODE` answers for a vector, `ENCODE` at its width turns back into it. -/
def Obligations.CodecRoundTrips : Prop :=
  (∀ (v w : Int) (b : Vec) (s t : State), exec (.encode v w) s = .next t → t.rsp = some (.value (.bits b)) →
    ∃ u, exec (.decode b) t = .next u ∧ u.rsp = some (.value (.int v))) ∧
  (∀ (b : Vec) (v : Int) (s t : State), exec (.decode b) s = .next t → t.rsp = some (.value (.int v)) →
    ∃ u, exec (.encode v b.len) t = .next u ∧ u.rsp = some (.value (.bits b)))

/-- The block's one arithmetic operation (R105): the signed value of a sum is the exact sum when it is in range, else off by
exactly `2^n`; subtraction is addition of the negation and is the difference modulo `2^n`. -/
def Obligations.AdditionWrapsModuloTwoToTheN : Prop :=
  ∀ (n : Nat) (x y : BitVec n), 1 ≤ n →
    (-2 ^ (n - 1) ≤ decodeBits x + decodeBits y ∧ decodeBits x + decodeBits y ≤ 2 ^ (n - 1) - 1 →
      decodeBits (applyAction .add x y) = decodeBits x + decodeBits y) ∧
    (decodeBits x + decodeBits y < -2 ^ (n - 1) →
      decodeBits (applyAction .add x y) = decodeBits x + decodeBits y + 2 ^ n) ∧
    (2 ^ (n - 1) - 1 < decodeBits x + decodeBits y →
      decodeBits (applyAction .add x y) = decodeBits x + decodeBits y - 2 ^ n) ∧
    applyAction .subtract x y = applyAction .add x (negateBits y) ∧
    applyAction .subtract x y = bv n (decodeBits x - decodeBits y)

/-! ## Width selector -/

/-- `MINWIDTH v` (R120): 1 for 0, else one more than the number of bits of the magnitude; the same for `v` and `-v`.
Only the answer changes. -/
def Obligations.MinwidthAnswersTheMagnitudeWidth : Prop :=
  ∀ (v : Int) (s : State), ∃ k : Int,
    exec (.minwidth v) s = .next { s with rsp := some (.value (.int k)) } ∧
    exec (.minwidth (-v)) s = .next { s with rsp := some (.value (.int k)) } ∧
    (v = 0 → k = 1) ∧
    (v ≠ 0 → ∃ l : Nat, 1 ≤ l ∧ k = l + 1 ∧ 2 ^ (l - 1) ≤ v.natAbs ∧ v.natAbs < 2 ^ l)

/-- `SELWIDTH vs, f` (R121, R124): the least width that is at least the floor and at least `MINWIDTH` of every value; the
empty sequence is refused with `EmptySequence`. Only the answer changes. -/
def Obligations.SelwidthAnswersTheMaximum : Prop :=
  ∀ (vs : List Int) (f : Int) (s : State),
    (vs ≠ [] → ∃ k : Int, exec (.selwidth vs f) s = .next { s with rsp := some (.value (.int k)) } ∧
      1 ≤ k ∧ f ≤ k ∧ (∀ v ∈ vs, minWidth v ≤ k) ∧ (k = f ∨ ∃ v ∈ vs, k = minWidth v)) ∧
    (vs = [] → exec (.selwidth vs f) s = .refused .emptySequence)

/-- `MINWIDTH` is always sufficient for `ENCODE`, and the smallest such width except for the negative powers of two, where
it is one more (R122; C2 of spec/90_conflicts.md). -/
def Obligations.MinwidthIsSufficientAndWhenMinimal : Prop :=
  ∀ v : Int,
    (∀ w : Int, minWidth v ≤ w → (encodeValue v w).isSome = true) ∧
    ((∀ k : Nat, v ≠ -2 ^ k) → ∀ w : Int, (encodeValue v w).isSome = true → minWidth v ≤ w) ∧
    (∀ k : Nat, v = -2 ^ k → minWidth v = k + 2 ∧ (encodeValue v (k + 1)).isSome = true ∧
      ∀ w : Int, (encodeValue v w).isSome = true → k + 1 ≤ w)

/-- An automatic width fits both operands and neither is the most negative value of it, whose `MINWIDTH` is one more
(R123). -/
def Obligations.AutomaticWidthAvoidsTheMostNegative : Prop :=
  ∀ m q f n : Int, selWidth [m, q] f = some n →
    (encodeValue m n).isSome = true ∧ (encodeValue q n).isSome = true ∧
    m ≠ -2 ^ (n - 1).toNat ∧ q ≠ -2 ^ (n - 1).toNat ∧ minWidth (-2 ^ (n - 1).toNat) = n + 1

/-! ## START -/

/-- The width choice (R131, R241): with an omitted `bitSize`, `START` and `RUN` do what they do with the `SELWIDTH` of both
operands and the floor register. With an explicit one the floor plays no part: at any other floor they answer the same
state but for the floor itself, or are refused for the same reason. -/
def Obligations.StartChoosesTheWidth : Prop :=
  ∀ (m q n f : Int) (s : State),
    (selWidth [m, q] s.FLOOR = some n →
      exec (.start m q none) s = exec (.start m q (some n)) s ∧
      exec (.run m q none) s = exec (.run m q (some n)) s) ∧
    (∀ i, i = .start m q (some n) ∨ i = .run m q (some n) →
      (∀ t, exec i s = .next t → exec i { s with FLOOR := f } = .next { t with FLOOR := f }) ∧
      (∀ r, exec i s = .refused r → exec i { s with FLOOR := f } = .refused r))

/-- An accepted `START` (R134): `A = 0`, `Q` and `M` the encoded operands, `QM1 = 0`, `N = n`, `I = 1`, phase `Deciding`,
`ERR = 0`, an empty trace, in every phase and whatever the registers held; all else is unchanged. -/
def Obligations.StartBeginsTheRun : Prop :=
  ∀ (m q : Int) (b : Option Int) (n : Nat) (s : State),
    chooseWidth m q b s.FLOOR = n → exceedsCapacity s.NMAX n = false → Fits m n → Fits q n →
    ∃ (act : Action) (ab : BitVec n) (d : Nat), exec (.start m q b) s = .next
      { s with
        PH := .deciding, ERR := .none, trace := [], rsp := some .ok, draws := d,
        run := { N := n, A := 0, Q := bv n q, QM1 := 0, M := bv n m, I := 1, ACT := act, AB := ab } }

/-- A `START` or `RUN` that raises (R204, R201, R132, R203): phase `Fault`, `ERR = 1`, the offending value (the multiplicand
first) and the width latched, the trace emptied, no snapshot sent, the floor unchanged; the registers of the run hold
any value. A stand-alone `ENCODE` that raises carries its operands and does none of this. Which operand is reported when
both overflow is the spec's own decision (R132, R203, D10), and U14 would let a cautious model leave it open: that it is
the multiplicand here is the model's choice (log 18). -/
def Obligations.OverflowEntersFault : Prop :=
  (∀ (m q : Int) (b : Option Int) (n : Int) (s : State),
    chooseWidth m q b s.FLOOR = n → exceedsCapacity s.NMAX n = false → ¬ (Fits m n ∧ Fits q n) →
    ∃ (v : Int) (r : Run) (d : Nat), (¬ Fits m n → v = m) ∧ (Fits m n → v = q) ∧
      exec (.start m q b) s = .next
        { s with PH := .fault, ERR := .widthOverflow, ERRVAL := v, ERRWIDTH := n, trace := [], run := r, draws := d,
                 rsp := some (.exception v n) } ∧
      exec (.run m q b) s = exec (.start m q b) s) ∧
  (∀ (v w : Int) (s : State), ¬ Fits v w → exec (.encode v w) s = .next { s with rsp := some (.exception v w) })

/-- A width beyond `NMAX` is refused with `WidthUnsupported`, whether or not the operands would fit; with `NMAX` unbounded
this never happens (R133). -/
def Obligations.WidthBeyondNmaxIsRefused : Prop :=
  ∀ (m q : Int) (b : Option Int) (s : State),
    (∀ (k : Nat) (h : 0 < k), s.NMAX = .upTo k h → (k : Int) < chooseWidth m q b s.FLOOR →
      exec (.start m q b) s = .refused .widthUnsupported ∧ exec (.run m q b) s = .refused .widthUnsupported) ∧
    (∀ (k : Nat) (h : 0 < k), s.NMAX = .upTo k h → chooseWidth m q b s.FLOOR ≤ k →
      (∃ t, exec (.start m q b) s = .next t) ∧ ∃ t, exec (.run m q b) s = .next t) ∧
    (s.NMAX = .unbounded → (∃ t, exec (.start m q b) s = .next t) ∧ ∃ t, exec (.run m q b) s = .next t)

/-- With automatic sizing nothing ever raises (R202): an automatic `START` that is not refused answers ok, and an
automatic `RUN` answers a value. -/
def Obligations.AutomaticSizingNeverRaises : Prop :=
  ∀ (m q : Int) (s : State),
    (∀ t, exec (.start m q none) s = .next t → t.rsp = some .ok) ∧
    (∀ t, exec (.run m q none) s = .next t → ∃ v, t.rsp = some (.value (.int v)))

/-! ## DECIDE and the micro-operations -/

/-- `DECIDE` (R141, R140): in `Deciding` it latches `A` in `AB` and the action in `ACT`, applies the action of the pair
`(Q[0], QM1)` to `A` and goes to `Shifting`; it changes nothing else. In any other phase it is refused. With `QM1 = 0`,
as at step 1, the action is never `Add`. -/
def Obligations.DecideActsByTheRecodePair : Prop :=
  ∀ s : State,
    (s.PH = .deciding → ∃ (act : Action) (a : BitVec s.run.N),
      exec .decide s = .next
        { s with PH := .shifting, rsp := some .ok, run := { s.run with A := a, AB := s.run.A, ACT := act } } ∧
      (s.run.Q.getLsbD 0 = true ∧ s.run.QM1 = 0 →
        act = .subtract ∧ a = bv s.run.N (s.run.A.toNat + (negateBits s.run.M).toNat)) ∧
      (s.run.Q.getLsbD 0 = false ∧ s.run.QM1 = 1 → act = .add ∧ a = bv s.run.N (s.run.A.toNat + s.run.M.toNat)) ∧
      (s.run.Q.getLsbD 0 = false ∧ s.run.QM1 = 0 → act = .noOp ∧ a = s.run.A) ∧
      (s.run.Q.getLsbD 0 = true ∧ s.run.QM1 = 1 → act = .noOp ∧ a = s.run.A) ∧
      (s.run.QM1 = 0 → act ≠ .add)) ∧
    (s.PH ≠ .deciding → exec .decide s = .refused .wrongPhase)

/-- What `DECIDE` makes of the accumulator is what the micro-operation the recode map gives for the current pair makes of
it (R69, R58). -/
def Obligations.DecideRunsTheMicroOperationOfThePair : Prop :=
  ∀ s : State, s.PH = .deciding → ∃ (act : Action) (a : BitVec s.run.N),
    exec (decodeRecode (s.run.Q.extractLsb' 0 1 ++ s.run.QM1)) s = .next { s with run := { s.run with A := a } } ∧
    exec .decide s = .next
      { s with PH := .shifting, rsp := some .ok, run := { s.run with A := a, AB := s.run.A, ACT := act } }

/-- `SUB` (R142): `A - M` modulo `2^n` and nothing else; with the most negative `M` it is the same as `ADD` and flips only
the sign bit of `A`; with `M = 0` it changes nothing. `DECIDE` on pair `10` does it, with action `Subtract` whatever `M`. -/
def Obligations.SubSubtractsTheMultiplicand : Prop :=
  ∀ s : State, ∃ a : BitVec s.run.N,
    exec .sub s = .next { s with run := { s.run with A := a } } ∧
    a.toNat = (s.run.A.toNat + (2 ^ s.run.N - s.run.M.toNat)) % 2 ^ s.run.N ∧
    a = bv s.run.N (decodeBits s.run.A - decodeBits s.run.M) ∧
    (1 ≤ s.run.N ∧ s.run.M.toNat = 2 ^ (s.run.N - 1) →
      exec .sub s = exec .add s ∧
      ∀ j, a.getLsbD j = (s.run.A.getLsbD j ^^ decide (j = s.run.N - 1))) ∧
    (s.run.M = 0 → exec .sub s = .next s) ∧
    (s.PH = .deciding ∧ s.run.Q.getLsbD 0 = true ∧ s.run.QM1 = 0 → ∃ t, exec .decide s = .next t ∧
      t.run = { s.run with A := a, AB := s.run.A, ACT := .subtract })

/-- `ADD` (R143): `A + M` modulo `2^n`, which is `s(A) + m` for any integer `m` that `M` encodes modulo `2^n`, and nothing
else; with `M = 0` it changes nothing. `DECIDE` on pair `01` does it, with action `Add` whatever `M`. -/
def Obligations.AddAddsTheMultiplicand : Prop :=
  ∀ s : State, ∃ a : BitVec s.run.N,
    exec .add s = .next { s with run := { s.run with A := a } } ∧
    a.toNat = (s.run.A.toNat + s.run.M.toNat) % 2 ^ s.run.N ∧
    (∀ m : Int, s.run.M = bv s.run.N m → a = bv s.run.N (decodeBits s.run.A + m)) ∧
    (s.run.M = 0 → exec .add s = .next s) ∧
    (s.PH = .deciding ∧ s.run.Q.getLsbD 0 = false ∧ s.run.QM1 = 1 → ∃ t, exec .decide s = .next t ∧
      t.run = { s.run with A := a, AB := s.run.A, ACT := .add })

/-- `NOP` (R144), either pair: nothing changes. -/
def Obligations.NopChangesNothing : Prop :=
  ∀ s : State, exec .nop00 s = .next s ∧ exec .nop11 s = .next s

/-! ## SHIFT, CYCLE and sequencing -/

/-- `SHIFT` (R145): in `Shifting`, one arithmetic right shift of `A ‖ Q ‖ QM1`, all three at once, one snapshot of the
cycle on the trace and on the output, and the advance of `(PH, I)`; nothing else changes. In any other phase it is
refused. A run has a width of at least 1 (`RunInv`). -/
def Obligations.ShiftShiftsTheTripleAndEmits : Prop :=
  ∀ s : State,
    (s.PH = .shifting → 1 ≤ s.run.N → ∃ (a q : BitVec s.run.N) (c : Bit) (r : Snapshot),
      exec .shift s = .next
        { s with
          PH := if s.run.I = s.run.N then .done else .deciding
          run := { s.run with A := a, Q := q, QM1 := c, I := if s.run.I = s.run.N then s.run.I else s.run.I + 1 }
          trace := s.trace ++ [r], emitted := s.emitted ++ [r], rsp := some .ok } ∧
      r = { N := s.run.N, step := s.run.I, before := { A := s.run.AB, Q := s.run.Q, QM1 := s.run.QM1 },
            action := s.run.ACT, afterArith := { A := s.run.A, Q := s.run.Q, QM1 := s.run.QM1 },
            afterShift := { A := a, Q := q, QM1 := c } } ∧
      (∀ j, j < s.run.N → a.getLsbD j =
        if j = s.run.N - 1 then s.run.A.getLsbD j else s.run.A.getLsbD (j + 1)) ∧
      (∀ j, j < s.run.N → q.getLsbD j =
        if j = s.run.N - 1 then s.run.A.getLsbD 0 else s.run.Q.getLsbD (j + 1)) ∧
      c.getLsbD 0 = s.run.Q.getLsbD 0 ∧
      decodeBits a = decodeBits s.run.A / 2 ∧
      q.toNat = s.run.A.toNat % 2 * 2 ^ (s.run.N - 1) + s.run.Q.toNat / 2 ∧
      decodeBits (a ++ q) = decodeBits (s.run.A ++ s.run.Q) / 2) ∧
    (s.PH ≠ .shifting → exec .shift s = .refused .wrongPhase)

/-- `CYCLE` is `DECIDE` then `SHIFT` as one transition, legal exactly where `DECIDE` is (R146, R79). -/
def Obligations.CycleIsDecideThenShift : Prop :=
  ∀ s : State,
    (s.PH = .deciding → ∃ t u, exec .decide s = .next t ∧ exec .shift t = .next u ∧ exec .cycle s = .next u) ∧
    (s.PH ≠ .deciding → exec .cycle s = .refused .wrongPhase)

/-- The only transitions of `(PH, I)` (R150), instruction by instruction. -/
def Obligations.OnlyTheseControlTransfers : Prop :=
  ∀ (i : Instr) (s t : State), exec i s = .next t →
    match i with
    | .start _ _ _ => (t.PH = .deciding ∧ t.run.I = 1) ∨ t.PH = .fault
    | .run _ _ _ => (t.PH = .done ∧ t.run.I = t.run.N) ∨ t.PH = .fault
    | .decide => s.PH = .deciding ∧ t.PH = .shifting ∧ t.run.I = s.run.I
    | .shift => s.PH = .shifting ∧
        ((s.run.I = s.run.N ∧ t.PH = .done ∧ t.run.I = s.run.I) ∨
         (s.run.I ≠ s.run.N ∧ t.PH = .deciding ∧ t.run.I = s.run.I + 1))
    | .cycle => s.PH = .deciding ∧
        ((s.run.I = s.run.N ∧ t.PH = .done ∧ t.run.I = s.run.I) ∨
         (s.run.I ≠ s.run.N ∧ t.PH = .deciding ∧ t.run.I = s.run.I + 1))
    | .result | .setfloor _ | .encode _ _ | .decode _ | .negate _ | .minwidth _ | .selwidth _ _ | .pdecode _
    | .sub | .add | .nop00 | .nop11 => t.PH = s.PH ∧ t.run.I = s.run.I

/-- `N` and `M` are written only by `START` and `RUN`, so the width and the multiplicand are fixed within a run (R24, R25,
R28): every other instruction leaves both, and the width of every register, as they are. -/
def Obligations.WidthAndMultiplicandAreFixedWithinARun : Prop :=
  ∀ (i : Instr) (s t : State), exec i s = .next t →
    (∀ m q b, i ≠ .start m q b ∧ i ≠ .run m q b) →
    ∃ (a q ab : BitVec s.run.N) (c : Bit) (k : Nat) (act : Action),
      t.run = { N := s.run.N, A := a, Q := q, QM1 := c, M := s.run.M, I := k, ACT := act, AB := ab }

/-- What the registers hold after `k` cycles of a run of width `n` (R153): the low `n - k` bits of `Q` are the multiplier
bits not yet consumed, `QM1` is the last one consumed, and `A` with the upper `k` bits of `Q` is the multiplicand times
the signed value of the multiplier bits consumed, exactly and without wrap unless the multiplicand is most negative,
when it is minus that. -/
def Obligations.RegistersAfterSomeCycles : Prop :=
  ∀ (m q : Int) (n k : Nat) (s : State),
    Fits m n → Fits q n → exceedsCapacity s.NMAX n = false → k ≤ n →
    ∃ (a b ab : BitVec n) (c : Bit) (act : Action) (t : State),
      execAll (.start m q (some n) :: List.replicate k .cycle) s = .next t ∧
      t.PH = (if k = n then .done else .deciding) ∧
      t.run = { N := n, A := a, Q := b, QM1 := c, M := bv n m, I := if k = n then n else k + 1,
                ACT := act, AB := ab } ∧
      (∀ j, j < n - k → b.getLsbD j = (bv n q).getLsbD (k + j)) ∧
      c.getLsbD 0 = (decide (1 ≤ k) && (bv n q).getLsbD (k - 1)) ∧
      (m ≠ -2 ^ (n - 1) →
        decodeBits (a ++ b.extractLsb' (n - k) k) = m * decodeBits ((bv n q).extractLsb' 0 k) ∧
        decodeBits a = m * decodeBits ((bv n q).extractLsb' 0 k) / 2 ^ k ∧
        ∀ r ∈ t.trace, decodeBits r.afterArith.A = decodeBits r.before.A +
          (match r.action with | .subtract => -m | .add => m | .noOp => 0)) ∧
      (m = -2 ^ (n - 1) →
        decodeBits (a ++ b.extractLsb' (n - k) k) = -(m * decodeBits ((bv n q).extractLsb' 0 k)))

/-- The actions of a run are those of the encoded multiplier's bit changes (R154, R140): step `j + 1` is `Subtract` where bit
`j` is 1 and the bit below it 0, `Add` where it is 0 and the bit below it 1, `NoOp` elsewhere; so as many steps are not
`NoOp` as there are positions where a bit differs from the one below it. -/
def Obligations.ActionsFollowTheBitChanges : Prop :=
  ∀ (m q : Int) (n : Nat) (s : State),
    Fits m n → Fits q n → exceedsCapacity s.NMAX n = false →
    ∃ t, exec (.run m q (some n)) s = .next t ∧
      (∀ (j : Nat) (r : Snapshot), t.trace[j]? = some r →
        r.action =
          match (bv n q).getLsbD j, decide (1 ≤ j) && (bv n q).getLsbD (j - 1) with
          | true, false => .subtract
          | false, true => .add
          | false, false => .noOp
          | true, true => .noOp) ∧
      (t.trace.filter (fun r => r.action != .noOp)).length =
        ((List.range n).filter
          (fun j => (bv n q).getLsbD j != (decide (1 ≤ j) && (bv n q).getLsbD (j - 1)))).length

/-! ## The product -/

/-- `PDECODE a, b` (R170): `s(a) * 2^n + u(b)`; total. Only the answer changes. -/
def Obligations.PdecodeAnswersThePairsValue : Prop :=
  ∀ (p : VecPair) (s : State), ∃ v : Int,
    exec (.pdecode p) s = .next { s with rsp := some (.value (.int v)) } ∧
    v = decodeBits p.high * 2 ^ p.len + p.low.toNat ∧
    (v < 0 ↔ p.high.getLsbD (p.len - 1) = true) ∧
    -2 ^ (2 * p.len - 1) ≤ v ∧ v ≤ 2 ^ (2 * p.len - 1) - 1

/-- `RESULT` (R171): in `Done` it answers the product of `A` and `Q`, changes nothing else and answers the same again; in
any other phase it is refused. -/
def Obligations.ResultAnswersTheProduct : Prop :=
  ∀ s : State,
    (s.PH = .done → ∃ (v : Int) (t : State),
      t = { s with rsp := some (.value (.int v)) } ∧ exec .result s = .next t ∧ exec .result t = .next t ∧
      v = decodeBits s.run.A * 2 ^ s.run.N + s.run.Q.toNat) ∧
    (s.PH ≠ .done → exec .result s = .refused .wrongPhase)

/-- Correctness (R172): whenever both operands fit `n` bits and the multiplicand is not the most negative value,
`START m, q, n`, then `n` cycles, then `RESULT` answer exactly `m * q`; so does `RUN m, q, n`. -/
def Obligations.ProductIsExact : Prop :=
  ∀ (m q : Int) (n : Nat) (s : State),
    Fits m n → Fits q n → exceedsCapacity s.NMAX n = false → m ≠ -2 ^ (n - 1) →
    ∃ t, execAll (.start m q (some n) :: (List.replicate n .cycle ++ [.result])) s = .next t ∧
      exec (.run m q (some n)) s = .next t ∧ t.rsp = some (.value (.int (m * q)))

/-- The most negative multiplicand (R173): the run is accepted, runs to the end without any exception, and `RESULT` answers
`2^(n-1) * q`, which is `-(m * q)`. -/
def Obligations.MostNegativeMultiplicandFlipsTheSign : Prop :=
  ∀ (q : Int) (n : Nat) (s : State),
    1 ≤ n → Fits q n → exceedsCapacity s.NMAX n = false →
    ∃ t, execAll (.start (-2 ^ (n - 1)) q (some n) :: (List.replicate n .cycle ++ [.result])) s = .next t ∧
      exec (.run (-2 ^ (n - 1)) q (some n)) s = .next t ∧ t.PH = .done ∧ t.ERR = .none ∧
      t.rsp = some (.value (.int (2 ^ (n - 1) * q))) ∧ (2 : Int) ^ (n - 1) * q = -(-2 ^ (n - 1) * q)

/-- Automatic sizing is always correct (R174): for all integers and every value of the floor register, an automatic `RUN`
on an instance that can hold the width answers `a * b`. -/
def Obligations.AutomaticSizingIsExact : Prop :=
  ∀ (a b : Int) (s : State),
    (∀ n, selWidth [a, b] s.FLOOR = some n → exceedsCapacity s.NMAX n = false) →
    ∃ t, exec (.run a b none) s = .next t ∧ t.rsp = some (.value (.int (a * b)))

/-- A zero operand (R175). Zero multiplicand: `A` is all zeros throughout, and the actions still follow the multiplier
(`ActionsFollowTheBitChanges`). Zero multiplier: every action is `NoOp` and `A` and `Q` are all zeros throughout. -/
def Obligations.ZeroOperandsKeepTheAccumulatorZero : Prop :=
  ∀ (v : Int) (n : Nat) (s : State), Fits v n → exceedsCapacity s.NMAX n = false →
    (∃ t, exec (.run 0 v (some n)) s = .next t ∧ t.rsp = some (.value (.int 0)) ∧
      ∀ r ∈ t.trace, r.before.A = 0 ∧ r.afterArith.A = 0 ∧ r.afterShift.A = 0) ∧
    (∃ t, exec (.run v 0 (some n)) s = .next t ∧ t.rsp = some (.value (.int 0)) ∧
      ∀ r ∈ t.trace, r.action = .noOp ∧ r.before.A = 0 ∧ r.before.Q = 0 ∧ r.afterArith.A = 0 ∧
        r.afterArith.Q = 0 ∧ r.afterShift.A = 0 ∧ r.afterShift.Q = 0)

/-! ## RUN and SETFLOOR -/

/-- `RUN` is its expansion (R79, R180): after an accepted `START` it is that `START`, `N` times `CYCLE`, and `RESULT`; a
`START` that raises or is refused is all there is. -/
def Obligations.RunIsItsExpansion : Prop :=
  ∀ (m q : Int) (b : Option Int) (s : State),
    (∀ t, exec (.start m q b) s = .next t → t.rsp = some .ok →
      ∃ u, execAll (.start m q b :: (List.replicate t.run.N .cycle ++ [.result])) s = .next u ∧
        exec (.run m q b) s = .next u) ∧
    (∀ t, exec (.start m q b) s = .next t → t.rsp ≠ some .ok → exec (.run m q b) s = .next t) ∧
    (∀ r, exec (.start m q b) s = .refused r → exec (.run m q b) s = .refused r)

/-- A successful `RUN` of width `n` (R180, R183, R60): phase `Done` with `I = N = n`, exactly `n` snapshots with steps
`1 .. n` in order, sent and kept as the trace; everything the run does not own is unchanged. -/
def Obligations.RunEmitsOneRecordPerCycle : Prop :=
  ∀ (m q : Int) (b : Option Int) (n : Nat) (s : State),
    chooseWidth m q b s.FLOOR = n → exceedsCapacity s.NMAX n = false → Fits m n → Fits q n →
    ∃ (r : Run) (records : List Snapshot) (v : Int) (d : Nat),
      exec (.run m q b) s = .next
        { s with PH := .done, run := r, ERR := .none, trace := records, emitted := s.emitted ++ records,
                 rsp := some (.value (.int v)), draws := d } ∧
      r.N = n ∧ r.I = n ∧ records.length = n ∧
      records.map (fun x => x.step) = (List.range n).map (fun k => k + 1) ∧ ∀ x ∈ records, x.N = n

/-- Determinism (R182): two `RUN`s with identical operands and identical floor, on instances of one size, answer the same and
emit the same records, whatever state the block was in before. -/
def Obligations.RunIsDeterministic : Prop :=
  ∀ (m q : Int) (b : Option Int) (s s' : State), s.FLOOR = s'.FLOOR → s.NMAX = s'.NMAX →
    (∀ t, exec (.run m q b) s = .next t → ∃ t', exec (.run m q b) s' = .next t' ∧ t'.rsp = t.rsp ∧
      t'.trace = t.trace ∧ t'.PH = t.PH ∧ t'.ERR = t.ERR ∧
      ∃ new, t.emitted = s.emitted ++ new ∧ t'.emitted = s'.emitted ++ new) ∧
    (∀ r, exec (.run m q b) s = .refused r → exec (.run m q b) s' = .refused r)

/-- `SETFLOOR f` (R181): writes the floor register, any integer in any phase, and nothing else but the answer. A floor below 1
acts as 1; with a floor above `NMAX` every automatic `START` and `RUN` is refused. -/
def Obligations.SetfloorWritesTheFloor : Prop :=
  ∀ (f : Int) (s : State), ∃ t, t = { s with FLOOR := f, rsp := some .ok } ∧ exec (.setfloor f) s = .next t ∧
    (∀ m q : Int, f < 1 → chooseWidth m q none t.FLOOR = chooseWidth m q none 1) ∧
    (∀ (m q : Int) (k : Nat) (h : 0 < k), s.NMAX = .upTo k h → (k : Int) < f →
      exec (.start m q none) t = .refused .widthUnsupported ∧ exec (.run m q none) t = .refused .widthUnsupported)

/-- The floor register changes only by `SETFLOOR`, to its operand, and by reset, to 4 (R31, R37): it survives every other
step, an accepted `START` and a fault too. -/
def Obligations.FloorIsWrittenOnlyBySetfloorAndReset : Prop :=
  ∀ s t : State, step s = .next t → t.FLOOR ≠ s.FLOOR →
    (∃ rest, s.port = .reset :: rest ∧ t.FLOOR = 4) ∨
    (∃ c rest f, s.port = .command c :: rest ∧ decode (.command c) = .ok (.setfloor f) ∧ t.FLOOR = f)

/-! ## Exceptions, refusals, responses -/

/-- The function units (R184): they are accepted in every phase (an empty `SELWIDTH` apart), read no register and write
none: the same answer in every state, and only the answer changes. -/
def Obligations.FunctionUnitsTouchNoRegister : Prop :=
  ∀ i : Instr,
    (∃ v w, i = .encode v w) ∨ (∃ b, i = .decode b) ∨ (∃ b, i = .negate b) ∨ (∃ v, i = .minwidth v) ∨
      (∃ vs f, i = .selwidth vs f) ∨ (∃ p, i = .pdecode p) →
    i.wellFormed = true →
    ∃ r : Response, ∀ s : State, exec i s = .next { s with rsp := some r }

/-- Refusals are exactly those of R211, and nothing ever faults (R152): for the commands, `WrongPhase` outside the phase,
`EmptySequence` for an empty `SELWIDTH`, `WidthUnsupported` beyond `NMAX`, and no other. -/
def Obligations.RefusalsAreExactlyThese : Prop :=
  ∀ (i : Instr) (s : State), i.isCommand = true →
    (∀ f, exec i s ≠ .fault f) ∧
    (∀ r, exec i s = .refused r ↔
      (r = .wrongPhase ∧
        ((i = .decide ∧ s.PH ≠ .deciding) ∨ (i = .shift ∧ s.PH ≠ .shifting) ∨ (i = .cycle ∧ s.PH ≠ .deciding) ∨
         (i = .result ∧ s.PH ≠ .done))) ∨
      (r = .emptySequence ∧ ∃ f, i = .selwidth [] f) ∨
      (r = .widthUnsupported ∧ ∃ m q b, (i = .start m q b ∨ i = .run m q b) ∧
        exceedsCapacity s.NMAX (chooseWidth m q b s.FLOOR) = true))

/-- The kind of answer each command gives (R72, R76): ok, a value, or the exception. -/
def Obligations.AnswersAreOfTheKindTheCommandMapSays : Prop :=
  ∀ (i : Instr) (s t : State), exec i s = .next t →
    match i with
    | .start _ _ _ => t.rsp = some .ok ∨ ∃ v w, t.rsp = some (.exception v w)
    | .decide | .shift | .cycle | .setfloor _ => t.rsp = some .ok
    | .result | .decode _ | .minwidth _ | .selwidth _ _ | .pdecode _ => ∃ v, t.rsp = some (.value (.int v))
    | .run _ _ _ => (∃ v, t.rsp = some (.value (.int v))) ∨ ∃ v w, t.rsp = some (.exception v w)
    | .encode _ _ => (∃ b, t.rsp = some (.value (.bits b))) ∨ ∃ v w, t.rsp = some (.exception v w)
    | .negate _ => ∃ b, t.rsp = some (.value (.bits b))
    | .sub | .add | .nop00 | .nop11 => t.rsp = s.rsp

/-- The kind code of what a command answers (R76): `00` ok, `01` value, `10` exception, `11` refused; every command answers
with one of the four. -/
def Obligations.ResponseKindCodes : Prop :=
  ∀ (i : Instr) (s : State), i.isCommand = true →
    (∀ t, exec i s = .next t →
      (t.rsp = some .ok ∧ answerKind (exec i s) = some 0b00#2) ∨
      (∃ v, t.rsp = some (.value v) ∧ answerKind (exec i s) = some 0b01#2) ∨
      (∃ v w, t.rsp = some (.exception v w) ∧ answerKind (exec i s) = some 0b10#2)) ∧
    (∀ r, exec i s = .refused r → answerKind (exec i s) = some 0b11#2) ∧
    ((∃ t, exec i s = .next t) ∨ ∃ r, exec i s = .refused r)

/-- `WidthOverflow` is raised only by `ENCODE`, `START` and `RUN`, on one of their operands at the width in question, and
only where that operand does not fit that width (R200, R201). -/
def Obligations.OnlyEncodeStartAndRunRaise : Prop :=
  ∀ (i : Instr) (s t : State) (v w : Int), i.isCommand = true → exec i s = .next t →
    t.rsp = some (.exception v w) →
    (w < 1 ∨ v < -2 ^ (w - 1).toNat ∨ 2 ^ (w - 1).toNat - 1 < v) ∧
    (i = .encode v w ∨
      ∃ m q b, (i = .start m q b ∨ i = .run m q b) ∧ (v = m ∨ v = q) ∧ w = chooseWidth m q b s.FLOOR)

/-- The block leaves `Fault` only by a `START`, a `RUN` or reset, and `ERR` stays 1 as long as it stays in it (R205). -/
def Obligations.FaultIsLeftOnlyByANewRunOrReset : Prop :=
  ∀ s t : State, s.PH = .fault → s.ERR = .widthOverflow → step s = .next t →
    (t.PH = .fault ∧ t.ERR = .widthOverflow) ∨
    (∃ rest, s.port = .reset :: rest ∧ t.PH = .idle ∧ t.ERR = .none) ∨
    (∃ c rest m q b, s.port = .command c :: rest ∧ decode (.command c) = .ok (.start m q b) ∧
      t.PH = .deciding ∧ t.ERR = .none) ∨
    (∃ c rest m q b, s.port = .command c :: rest ∧ decode (.command c) = .ok (.run m q b) ∧
      t.PH = .done ∧ t.ERR = .none)

/-! ## The whole machine -/

/-- The trace output is write-only (R35, R135): a step only appends to what was sent, and whatever it appends is at the end
of the trace it leaves. -/
def Obligations.TraceOutputOnlyGrows : Prop :=
  ∀ s t : State, step s = .next t →
    ∃ new : List Snapshot, t.emitted = s.emitted ++ new ∧ (t.trace = s.trace ++ new ∨ t.trace = new)

/-- Every step keeps the invariant (R24, R27, R28, R33, R36, R151, R205): while a run exists, registers and trace are
exactly those of the Booth cycles done so far; `ERR = 1` exactly in `Fault`. -/
def Obligations.StepKeepsTheInvariant : Prop :=
  ∀ s t : State, s.Inv → step s = .next t → t.Inv

/-- The state after reset meets the invariant. -/
def Obligations.ResetMeetsTheInvariant : Prop := State.reset.Inv

/-- Reading the status and the data registers (R34, R33, R36): while a run exists a read gives the registers; `PH`, `ERR` and
`FLOOR` always; the error context while `ERR = 1`. -/
def Obligations.ReadsGiveTheRegisters : Prop :=
  ∀ s : State,
    s.readStatus.PH = s.PH ∧ s.readStatus.ERR = s.ERR ∧ s.readStatus.FLOOR = s.FLOOR ∧
    (s.PH = .deciding ∨ s.PH = .shifting ∨ s.PH = .done →
      s.readStatus.I = s.run.I ∧ s.readStatus.N = s.run.N ∧
      s.readData = { N := s.run.N, regs := { A := s.run.A, Q := s.run.Q, QM1 := s.run.QM1 } }) ∧
    (s.ERR = .widthOverflow → s.readStatus.ERRVAL = s.ERRVAL ∧ s.readStatus.ERRWIDTH = s.ERRWIDTH)
end

