-- ==== Sys2Proof/Laws/Arith.lean ====
section
/-! SUPPORT. The function units in terms of the library's bit vectors, and what each sub-step does to the registers
read as integers: one lemma per operation, for proofs to cite. -/

namespace Sys2Proof.Machine

variable {n : Nat}

theorem decodeBits_eq_toInt (b : BitVec n) : decodeBits b = b.toInt := by
  simp [decodeBits, BitVec.toInt_eq_msb_cond]

theorem negateBits_eq_neg (b : BitVec n) : negateBits b = -b := by
  rw [negateBits, decodeBits_eq_toInt, bv, BitVec.ofInt_neg, BitVec.ofInt_toInt]

theorem productOf_eq (a b : BitVec n) : productOf a b = a.toInt * 2 ^ n + b.toNat := by
  rw [productOf, decodeBits_eq_toInt, BitVec.toInt_append]
  split
  · next h =>
    obtain rfl : n = 0 := by simpa using h
    simp [BitVec.of_length_zero]
  · ring

@[simp] theorem applyAction_noOp (a m : BitVec n) : applyAction .noOp a m = a := rfl

@[simp] theorem applyAction_add (a m : BitVec n) : applyAction .add a m = a + m := by
  apply BitVec.eq_of_toNat_eq
  simp [applyAction, bv, BitVec.toNat_ofInt, BitVec.toNat_add]
  norm_cast

@[simp] theorem applyAction_subtract (a m : BitVec n) : applyAction .subtract a m = a - m := by
  have : applyAction .subtract a m = applyAction .add a (-m) := by
    simp only [applyAction, negateBits_eq_neg]
  rw [this, applyAction_add, BitVec.sub_eq_add_neg]

/-- The `2n+1` bits of the shift register, bit by bit (R66). -/
theorem concat_getLsbD (t : Triple n) (i : Nat) :
    (t.A ++ t.Q ++ t.QM1).getLsbD i =
      if i = 0 then t.QM1.getLsbD 0 else if i ≤ n then t.Q.getLsbD (i - 1) else t.A.getLsbD (i - 1 - n) := by
  rw [BitVec.getLsbD_append, BitVec.getLsbD_append]
  rcases Nat.eq_zero_or_pos i with rfl | h
  · simp
  · have h1 : ¬ i < 1 := by omega
    have h2 : ¬ i = 0 := by omega
    by_cases h3 : i ≤ n
    · have : i - 1 < n := by omega
      simp [h1, h2, h3, this]
    · have : ¬ i - 1 < n := by omega
      simp [h1, h2, h3, this]

/-- After `SHIFT` the accumulator is the old one shifted right arithmetically (R145). -/
theorem shifted_A (t : Triple n) : t.shifted.A = t.A.sshiftRight 1 := by
  apply BitVec.eq_of_getLsbD_eq
  intro i hi
  simp only [Triple.shifted, BitVec.getLsbD_extractLsb', hi, decide_true, Bool.true_and,
    BitVec.getLsbD_sshiftRight, concat_getLsbD]
  have hw : ¬ n + n + 1 ≤ n + 1 + i := by omega
  have hn : ¬ n ≤ i := by omega
  simp only [hw, hn, decide_false, Bool.not_false, Bool.true_and]
  by_cases h : 1 + i < n
  · have h1 : 1 + (n + 1 + i) < n + n + 1 := by omega
    have h3 : ¬ 1 + (n + 1 + i) ≤ n := by omega
    have h4 : n + 1 + i - n = 1 + i := by omega
    simp [h, h1, h3, h4]
  · have h1 : ¬ 1 + (n + 1 + i) < n + n + 1 := by omega
    have hn0 : n ≠ 0 := by omega
    simp [h, h1, BitVec.msb_append, hn0]

/-- After `SHIFT` the multiplier register holds the old `A[0]` above the upper bits of the old `Q` (R145). -/
theorem shifted_Q (t : Triple n) : t.shifted.Q = (t.A ++ t.Q).extractLsb' 1 n := by
  apply BitVec.eq_of_getLsbD_eq
  intro i hi
  simp only [Triple.shifted, BitVec.getLsbD_extractLsb', hi, decide_true, Bool.true_and,
    BitVec.getLsbD_sshiftRight, BitVec.getLsbD_append]
  have hw : ¬ n + n + 1 ≤ 1 + i := by omega
  have h1 : 1 + (1 + i) < n + n + 1 := by omega
  have h4 : 1 + (1 + i) - 1 = 1 + i := by omega
  simp only [hw, h1, h4, decide_false, Bool.not_false, Bool.true_and, if_true]
  by_cases h : 1 + i < n <;> simp [h]

/-- After `SHIFT` the history bit is the old `Q[0]` (R145). -/
theorem shifted_QM1 (hn : 0 < n) (t : Triple n) : t.shifted.QM1 = t.Q.extractLsb' 0 1 := by
  apply BitVec.eq_of_getLsbD_eq
  intro i hi
  obtain rfl : i = 0 := by omega
  have h1 : 1 < n + n + 1 := by omega
  simp only [Triple.shifted, BitVec.getLsbD_extractLsb', BitVec.getLsbD_sshiftRight, concat_getLsbD]
  have h2 : (1 : Nat) ≤ n := hn
  simp [h1, h2]

/-- `s(A') = floor(s(A) / 2)` (R145). -/
theorem shifted_A_toInt (t : Triple n) : t.shifted.A.toInt = t.A.toInt / 2 := by
  rw [shifted_A, BitVec.toInt_sshiftRight, Int.shiftRight_eq_div_pow]; simp

/-- `u(Q') = A[0] * 2^(n-1) + floor(u(Q) / 2)` (R145). -/
theorem shifted_Q_toNat (hn : 0 < n) (t : Triple n) :
    t.shifted.Q.toNat = t.A.toNat % 2 * 2 ^ (n - 1) + t.Q.toNat / 2 := by
  obtain ⟨k, rfl⟩ : ∃ k, n = k + 1 := ⟨n - 1, by omega⟩
  have hq := t.Q.isLt
  rw [shifted_Q, BitVec.extractLsb'_toNat, BitVec.toNat_append, Nat.shiftRight_eq_div_pow,
    ← Nat.shiftLeft_add_eq_or_of_lt hq, Nat.shiftLeft_eq]
  have h1 : t.A.toNat * 2 ^ (k + 1) + t.Q.toNat = 2 * (t.A.toNat * 2 ^ k) + t.Q.toNat := by ring
  have h2 : (2 * (t.A.toNat * 2 ^ k) + t.Q.toNat) / 2 ^ 1 = t.A.toNat * 2 ^ k + t.Q.toNat / 2 := by omega
  have h3 : t.A.toNat = 2 * (t.A.toNat / 2) + t.A.toNat % 2 := by omega
  have h4 : t.A.toNat * 2 ^ k = t.A.toNat / 2 * 2 ^ (k + 1) + t.A.toNat % 2 * 2 ^ k := by
    conv_lhs => rw [h3]
    ring
  have hb : t.A.toNat % 2 * 2 ^ k + t.Q.toNat / 2 < 2 ^ (k + 1) := by
    have : t.A.toNat % 2 * 2 ^ k ≤ 1 * 2 ^ k := Nat.mul_le_mul_right _ (by omega)
    have : (2 : Nat) ^ (k + 1) = 2 * 2 ^ k := by ring
    omega
  rw [h1, h2, h4, Nat.add_assoc, Nat.mul_add_mod_self_right, Nat.mod_eq_of_lt hb]
  simp

/-- `QM1' = Q[0]`, read as a number (R145). -/
theorem shifted_QM1_toNat (hn : 0 < n) (t : Triple n) : t.shifted.QM1.toNat = t.Q.toNat % 2 := by
  rw [shifted_QM1 hn, BitVec.extractLsb'_toNat]; simp

/-- The recode pair read as a number: `2 * Q[0] + QM1` (R68). -/
theorem pair_toNat (t : Triple n) : t.pair.toNat = 2 * (t.Q.toNat % 2) + t.QM1.toNat := by
  rw [Triple.pair, BitVec.toNat_append, BitVec.extractLsb'_toNat, ← Nat.shiftLeft_add_eq_or_of_lt t.QM1.isLt,
    Nat.shiftLeft_eq]
  simp; ring

/-- Recoding in terms of the micro-operation the recode map decodes (R69, R140). -/
theorem recode_eq_of_decodeRecode (p : BitVec 2) :
    recode p = match decodeRecode p with | .sub => .subtract | .add => .add | _ => .noOp := by
  revert p; decide

@[simp] theorem decided_Q (m : BitVec n) (t : Triple n) : (t.decided m).Q = t.Q := rfl
@[simp] theorem decided_QM1 (m : BitVec n) (t : Triple n) : (t.decided m).QM1 = t.QM1 := rfl
theorem decided_A (m : BitVec n) (t : Triple n) : (t.decided m).A = applyAction (recode t.pair) t.A m := rfl

/-- `bitlen(k)` is the `L` with `2^(L-1) <= k < 2^L` (R10). -/
theorem bitlen_spec {k : Nat} (hk : k ≠ 0) : 2 ^ (bitlen k - 1) ≤ k ∧ k < 2 ^ bitlen k := by
  exact ⟨Nat.log2_self_le hk, (Nat.log2_lt hk).mp (by simp [bitlen])⟩

/-- `MINWIDTH` is at least 1 (R120). -/
theorem one_le_minWidth (v : Int) : 1 ≤ minWidth v := by
  unfold minWidth; split <;> omega

/-- The selector on two values is the automatic width (R121, R131). -/
theorem selWidth_pair (m q f : Int) : selWidth [m, q] f = some (max f (max (minWidth m) (minWidth q))) := rfl

/-- A value that fits, encoded and read back (R103). -/
theorem toInt_bv_of_fits {v : Int} {w : Nat} (h : Fits v w) : (bv w v).toInt = v := by
  obtain ⟨k, rfl⟩ : ∃ k, w = k + 1 := ⟨w - 1, by have := h.1; omega⟩
  obtain ⟨-, h2, h3⟩ := h
  simp only [Nat.cast_add, Nat.cast_one, add_sub_cancel_right, Int.toNat_natCast] at h2 h3
  rw [bv, BitVec.toInt_ofInt]
  apply Int.bmod_eq_of_le <;> · push_cast; rw [pow_succ]; omega

/-- Every vector's value fits its width (R104). -/
theorem fits_toInt {w : Nat} (hw : 0 < w) (b : BitVec w) : Fits b.toInt w := by
  obtain ⟨k, rfl⟩ : ∃ k, w = k + 1 := ⟨w - 1, by omega⟩
  have h1 := BitVec.le_toInt b
  have h2 := BitVec.toInt_lt (x := b)
  refine ⟨by omega, ?_, ?_⟩ <;> simp at * <;> omega

end Sys2Proof.Machine
end

