-- ==== Sys2Proof/Laws/State.lean ====
section
/-! SUPPORT. What each shared operation makes of each field of the state: one lemma per field per operation, so that no
proof unfolds a record update. -/

namespace Sys2Proof.Machine

variable (s : State)

/-! ## `State.answer` -/

@[simp] theorem State.answer_PH (r : Response) : (s.answer r).PH = s.PH := rfl
@[simp] theorem State.answer_run (r : Response) : (s.answer r).run = s.run := rfl
@[simp] theorem State.answer_FLOOR (r : Response) : (s.answer r).FLOOR = s.FLOOR := rfl
@[simp] theorem State.answer_ERR (r : Response) : (s.answer r).ERR = s.ERR := rfl
@[simp] theorem State.answer_ERRVAL (r : Response) : (s.answer r).ERRVAL = s.ERRVAL := rfl
@[simp] theorem State.answer_ERRWIDTH (r : Response) : (s.answer r).ERRWIDTH = s.ERRWIDTH := rfl
@[simp] theorem State.answer_trace (r : Response) : (s.answer r).trace = s.trace := rfl
@[simp] theorem State.answer_emitted (r : Response) : (s.answer r).emitted = s.emitted := rfl
@[simp] theorem State.answer_rsp (r : Response) : (s.answer r).rsp = some r := rfl
@[simp] theorem State.answer_port (r : Response) : (s.answer r).port = s.port := rfl
@[simp] theorem State.answer_NMAX (r : Response) : (s.answer r).NMAX = s.NMAX := rfl
@[simp] theorem State.answer_draws (r : Response) : (s.answer r).draws = s.draws := rfl

/-! ## `State.emit` -/

@[simp] theorem State.emit_PH (r : Snapshot) : (s.emit r).PH = s.PH := rfl
@[simp] theorem State.emit_run (r : Snapshot) : (s.emit r).run = s.run := rfl
@[simp] theorem State.emit_FLOOR (r : Snapshot) : (s.emit r).FLOOR = s.FLOOR := rfl
@[simp] theorem State.emit_ERR (r : Snapshot) : (s.emit r).ERR = s.ERR := rfl
@[simp] theorem State.emit_ERRVAL (r : Snapshot) : (s.emit r).ERRVAL = s.ERRVAL := rfl
@[simp] theorem State.emit_ERRWIDTH (r : Snapshot) : (s.emit r).ERRWIDTH = s.ERRWIDTH := rfl
@[simp] theorem State.emit_trace (r : Snapshot) : (s.emit r).trace = s.trace ++ [r] := rfl
@[simp] theorem State.emit_emitted (r : Snapshot) : (s.emit r).emitted = s.emitted ++ [r] := rfl
@[simp] theorem State.emit_rsp (r : Snapshot) : (s.emit r).rsp = s.rsp := rfl
@[simp] theorem State.emit_port (r : Snapshot) : (s.emit r).port = s.port := rfl
@[simp] theorem State.emit_NMAX (r : Snapshot) : (s.emit r).NMAX = s.NMAX := rfl
@[simp] theorem State.emit_draws (r : Snapshot) : (s.emit r).draws = s.draws := rfl

/-! ## `State.enterFault` -/

@[simp] theorem State.enterFault_PH (v w : Int) : (s.enterFault v w).PH = .fault := rfl
@[simp] theorem State.enterFault_run (v w : Int) : (s.enterFault v w).run = freeRun s.draws := rfl
@[simp] theorem State.enterFault_FLOOR (v w : Int) : (s.enterFault v w).FLOOR = s.FLOOR := rfl
@[simp] theorem State.enterFault_ERR (v w : Int) : (s.enterFault v w).ERR = .widthOverflow := rfl
@[simp] theorem State.enterFault_ERRVAL (v w : Int) : (s.enterFault v w).ERRVAL = v := rfl
@[simp] theorem State.enterFault_ERRWIDTH (v w : Int) : (s.enterFault v w).ERRWIDTH = w := rfl
@[simp] theorem State.enterFault_trace (v w : Int) : (s.enterFault v w).trace = [] := rfl
@[simp] theorem State.enterFault_emitted (v w : Int) : (s.enterFault v w).emitted = s.emitted := rfl
@[simp] theorem State.enterFault_rsp (v w : Int) : (s.enterFault v w).rsp = s.rsp := rfl
@[simp] theorem State.enterFault_port (v w : Int) : (s.enterFault v w).port = s.port := rfl
@[simp] theorem State.enterFault_NMAX (v w : Int) : (s.enterFault v w).NMAX = s.NMAX := rfl
@[simp] theorem State.enterFault_draws (v w : Int) : (s.enterFault v w).draws = s.draws + 1 := rfl

/-! ## `State.resetInput` -/

@[simp] theorem State.resetInput_PH : s.resetInput.PH = .idle := rfl
@[simp] theorem State.resetInput_run : s.resetInput.run = freeRun s.draws := rfl
@[simp] theorem State.resetInput_FLOOR : s.resetInput.FLOOR = 4 := rfl
@[simp] theorem State.resetInput_ERR : s.resetInput.ERR = .none := rfl
@[simp] theorem State.resetInput_ERRVAL : s.resetInput.ERRVAL = Config.freeERRVAL s.draws := rfl
@[simp] theorem State.resetInput_ERRWIDTH : s.resetInput.ERRWIDTH = Config.freeERRWIDTH s.draws := rfl
@[simp] theorem State.resetInput_trace : s.resetInput.trace = [] := rfl
@[simp] theorem State.resetInput_emitted : s.resetInput.emitted = s.emitted := rfl
@[simp] theorem State.resetInput_rsp : s.resetInput.rsp = none := rfl
@[simp] theorem State.resetInput_port : s.resetInput.port = s.port := rfl
@[simp] theorem State.resetInput_NMAX : s.resetInput.NMAX = s.NMAX := rfl
@[simp] theorem State.resetInput_draws : s.resetInput.draws = s.draws + 1 := rfl

/-! ## `State.beginRun` -/

@[simp] theorem State.beginRun_PH (m q : Int) (n : Nat) : (s.beginRun m q n).PH = .deciding := rfl
@[simp] theorem State.beginRun_run (m q : Int) (n : Nat) :
    (s.beginRun m q n).run = { N := n, A := 0, Q := bv n q, QM1 := 0, M := bv n m, I := 1, ACT := Config.freeACT s.draws, AB := Config.freeAB s.draws n } := rfl
@[simp] theorem State.beginRun_FLOOR (m q : Int) (n : Nat) : (s.beginRun m q n).FLOOR = s.FLOOR := rfl
@[simp] theorem State.beginRun_ERR (m q : Int) (n : Nat) : (s.beginRun m q n).ERR = .none := rfl
@[simp] theorem State.beginRun_ERRVAL (m q : Int) (n : Nat) : (s.beginRun m q n).ERRVAL = s.ERRVAL := rfl
@[simp] theorem State.beginRun_ERRWIDTH (m q : Int) (n : Nat) : (s.beginRun m q n).ERRWIDTH = s.ERRWIDTH := rfl
@[simp] theorem State.beginRun_trace (m q : Int) (n : Nat) : (s.beginRun m q n).trace = [] := rfl
@[simp] theorem State.beginRun_emitted (m q : Int) (n : Nat) : (s.beginRun m q n).emitted = s.emitted := rfl
@[simp] theorem State.beginRun_rsp (m q : Int) (n : Nat) : (s.beginRun m q n).rsp = s.rsp := rfl
@[simp] theorem State.beginRun_port (m q : Int) (n : Nat) : (s.beginRun m q n).port = s.port := rfl
@[simp] theorem State.beginRun_NMAX (m q : Int) (n : Nat) : (s.beginRun m q n).NMAX = s.NMAX := rfl
@[simp] theorem State.beginRun_draws (m q : Int) (n : Nat) : (s.beginRun m q n).draws = s.draws + 1 := rfl

/-! ## `State.microOp` -/

@[simp] theorem State.microOp_PH (act : Action) : (s.microOp act).PH = s.PH := rfl
@[simp] theorem State.microOp_run (act : Action) :
    (s.microOp act).run = { s.run with A := applyAction act s.run.A s.run.M } := rfl
@[simp] theorem State.microOp_FLOOR (act : Action) : (s.microOp act).FLOOR = s.FLOOR := rfl
@[simp] theorem State.microOp_ERR (act : Action) : (s.microOp act).ERR = s.ERR := rfl
@[simp] theorem State.microOp_ERRVAL (act : Action) : (s.microOp act).ERRVAL = s.ERRVAL := rfl
@[simp] theorem State.microOp_ERRWIDTH (act : Action) : (s.microOp act).ERRWIDTH = s.ERRWIDTH := rfl
@[simp] theorem State.microOp_trace (act : Action) : (s.microOp act).trace = s.trace := rfl
@[simp] theorem State.microOp_emitted (act : Action) : (s.microOp act).emitted = s.emitted := rfl
@[simp] theorem State.microOp_rsp (act : Action) : (s.microOp act).rsp = s.rsp := rfl
@[simp] theorem State.microOp_port (act : Action) : (s.microOp act).port = s.port := rfl
@[simp] theorem State.microOp_NMAX (act : Action) : (s.microOp act).NMAX = s.NMAX := rfl
@[simp] theorem State.microOp_draws (act : Action) : (s.microOp act).draws = s.draws := rfl

/-! ## `State.decideStep` -/

@[simp] theorem State.decideStep_PH : s.decideStep.PH = .shifting := rfl
@[simp] theorem State.decideStep_run :
    s.decideStep.run = { s.run with AB := s.run.A, ACT := recode s.run.triple.pair, A := applyAction (recode s.run.triple.pair) s.run.A s.run.M } := rfl
@[simp] theorem State.decideStep_FLOOR : s.decideStep.FLOOR = s.FLOOR := rfl
@[simp] theorem State.decideStep_ERR : s.decideStep.ERR = s.ERR := rfl
@[simp] theorem State.decideStep_ERRVAL : s.decideStep.ERRVAL = s.ERRVAL := rfl
@[simp] theorem State.decideStep_ERRWIDTH : s.decideStep.ERRWIDTH = s.ERRWIDTH := rfl
@[simp] theorem State.decideStep_trace : s.decideStep.trace = s.trace := rfl
@[simp] theorem State.decideStep_emitted : s.decideStep.emitted = s.emitted := rfl
@[simp] theorem State.decideStep_rsp : s.decideStep.rsp = s.rsp := rfl
@[simp] theorem State.decideStep_port : s.decideStep.port = s.port := rfl
@[simp] theorem State.decideStep_NMAX : s.decideStep.NMAX = s.NMAX := rfl
@[simp] theorem State.decideStep_draws : s.decideStep.draws = s.draws := rfl

/-! ## `State.shiftStep` -/

@[simp] theorem State.shiftStep_PH : s.shiftStep.PH = if s.run.I = s.run.N then .done else .deciding := rfl
@[simp] theorem State.shiftStep_run :
    s.shiftStep.run = { s.run with A := s.run.triple.shifted.A, Q := s.run.triple.shifted.Q, QM1 := s.run.triple.shifted.QM1, I := if s.run.I = s.run.N then s.run.I else s.run.I + 1 } := rfl
@[simp] theorem State.shiftStep_FLOOR : s.shiftStep.FLOOR = s.FLOOR := rfl
@[simp] theorem State.shiftStep_ERR : s.shiftStep.ERR = s.ERR := rfl
@[simp] theorem State.shiftStep_ERRVAL : s.shiftStep.ERRVAL = s.ERRVAL := rfl
@[simp] theorem State.shiftStep_ERRWIDTH : s.shiftStep.ERRWIDTH = s.ERRWIDTH := rfl
@[simp] theorem State.shiftStep_trace : s.shiftStep.trace = s.trace ++ [s.run.snapshot] := rfl
@[simp] theorem State.shiftStep_emitted : s.shiftStep.emitted = s.emitted ++ [s.run.snapshot] := rfl
@[simp] theorem State.shiftStep_rsp : s.shiftStep.rsp = s.rsp := rfl
@[simp] theorem State.shiftStep_port : s.shiftStep.port = s.port := rfl
@[simp] theorem State.shiftStep_NMAX : s.shiftStep.NMAX = s.NMAX := rfl
@[simp] theorem State.shiftStep_draws : s.shiftStep.draws = s.draws := rfl

/-! ## The registers a sub-step leaves, as a triple -/

theorem State.decideStep_triple : s.decideStep.run.triple = s.run.triple.decided s.run.M := rfl

theorem State.shiftStep_triple : s.shiftStep.run.triple = s.run.triple.shifted := rfl

@[simp] theorem State.decideStep_N : s.decideStep.run.N = s.run.N := rfl
@[simp] theorem State.decideStep_M : s.decideStep.run.M = s.run.M := rfl
@[simp] theorem State.decideStep_I : s.decideStep.run.I = s.run.I := rfl
@[simp] theorem State.shiftStep_N : s.shiftStep.run.N = s.run.N := rfl
@[simp] theorem State.shiftStep_M : s.shiftStep.run.M = s.run.M := rfl
@[simp] theorem State.cycleStep_N : s.cycleStep.run.N = s.run.N := rfl
@[simp] theorem State.cycleStep_M : s.cycleStep.run.M = s.run.M := rfl
theorem State.cycleStep_triple : s.cycleStep.run.triple = (s.run.triple.decided s.run.M).shifted := rfl

@[simp] theorem State.cycleSteps_zero : s.cycleSteps 0 = s := rfl
@[simp] theorem State.cycleSteps_succ (k : Nat) : s.cycleSteps (k + 1) = s.cycleStep.cycleSteps k := rfl

end Sys2Proof.Machine
end

