-- ==== Sys2Proof/Laws/Ops.lean ====
section
/-! SUPPORT. What each shared operation, each family and the step can do, said once: proofs cite these and do not
unfold the operations. -/

namespace Sys2Proof.Machine

/-- An explicit width is taken as it is, whatever the floor (R131, R241). -/
@[simp] theorem chooseWidth_some (m q n f : Int) : chooseWidth m q (some n) f = n := rfl

/-- What a `START` can come to (R130, R203). -/
theorem State.start_cases (s : State) (m q : Int) (b : Option Int) :
    (exceedsCapacity s.NMAX (chooseWidth m q b s.FLOOR) = true ∧ s.start m q b = .refused .widthUnsupported) ∨
    (exceedsCapacity s.NMAX (chooseWidth m q b s.FLOOR) = false ∧ ¬ Fits m (chooseWidth m q b s.FLOOR) ∧
      s.start m q b = .raised m (chooseWidth m q b s.FLOOR) (s.enterFault m (chooseWidth m q b s.FLOOR))) ∨
    (exceedsCapacity s.NMAX (chooseWidth m q b s.FLOOR) = false ∧ Fits m (chooseWidth m q b s.FLOOR) ∧
      ¬ Fits q (chooseWidth m q b s.FLOOR) ∧
      s.start m q b = .raised q (chooseWidth m q b s.FLOOR) (s.enterFault q (chooseWidth m q b s.FLOOR))) ∨
    (exceedsCapacity s.NMAX (chooseWidth m q b s.FLOOR) = false ∧ Fits m (chooseWidth m q b s.FLOOR) ∧
      Fits q (chooseWidth m q b s.FLOOR) ∧
      s.start m q b = .began (s.beginRun m q (chooseWidth m q b s.FLOOR).toNat)) := by
  unfold State.start
  generalize chooseWidth m q b s.FLOOR = n
  cases hc : exceedsCapacity s.NMAX n
  · by_cases hm : Fits m n
    · by_cases hq : Fits q n
      · exact .inr (.inr (.inr ⟨rfl, hm, hq, by rw [if_neg (by simp [hc]), if_neg (not_not.mpr hm), if_neg (not_not.mpr hq)]⟩))
      · exact .inr (.inr (.inl ⟨rfl, hm, hq, by rw [if_neg (by simp [hc]), if_neg (not_not.mpr hm), if_pos hq]⟩))
    · exact .inr (.inl ⟨rfl, hm, by rw [if_neg (by simp [hc]), if_pos hm]⟩)
  · exact .inl ⟨rfl, if_pos hc⟩

/-- A `START` with an explicit width comes to the same at any other floor (R131, R241). -/
theorem State.start_withFloor (s : State) (m q n f : Int) :
    (∃ r, s.start m q (some n) = .refused r ∧ State.start { s with FLOOR := f } m q (some n) = .refused r) ∨
    (∃ v w t, s.start m q (some n) = .raised v w t ∧
      State.start { s with FLOOR := f } m q (some n) = .raised v w { t with FLOOR := f }) ∨
    (∃ t, s.start m q (some n) = .began t ∧
      State.start { s with FLOOR := f } m q (some n) = .began { t with FLOOR := f }) := by
  have start_some : ∀ u : State, u.start m q (some n) =
      if exceedsCapacity u.NMAX n then .refused .widthUnsupported
      else if ¬ Fits m n then .raised m n (u.enterFault m n)
      else if ¬ Fits q n then .raised q n (u.enterFault q n)
      else .began (u.beginRun m q n.toNat) := fun _ => rfl
  rw [start_some, start_some]
  by_cases hc : exceedsCapacity s.NMAX n = true
  · exact .inl ⟨_, if_pos hc, if_pos hc⟩
  · rw [if_neg hc, if_neg hc]
    by_cases hm : ¬ Fits m n
    · rw [if_pos hm, if_pos hm]; exact .inr (.inl ⟨_, _, _, rfl, rfl⟩)
    · rw [if_neg hm, if_neg hm]
      by_cases hq : ¬ Fits q n
      · rw [if_pos hq, if_pos hq]; exact .inr (.inl ⟨_, _, _, rfl, rfl⟩)
      · rw [if_neg hq, if_neg hq]; exact .inr (.inr ⟨_, rfl, rfl⟩)

/-- A command that has a phase of its own answers only there (R211). -/
theorem execDecide_eq {s : State} (h : s.PH = .deciding) : execDecide s = .next (s.decideStep.answer .ok) := by
  simp [execDecide, h]

theorem execShift_eq {s : State} (h : s.PH = .shifting) : execShift s = .next (s.shiftStep.answer .ok) := by
  simp [execShift, h]

theorem execCycle_eq {s : State} (h : s.PH = .deciding) : execCycle s = .next (s.cycleStep.answer .ok) := by
  simp [execCycle, h]

theorem execResult_eq {s : State} (h : s.PH = .done) :
    execResult s = .next (s.answer (.value (.int s.product))) := by
  simp [execResult, h]

/-- What a step can do (R55, R56): wait, reset, run the instruction of the command presented, or refuse. -/
theorem step_cases (s : State) :
    (s.port = [] ∧ step s = .next s) ∨
    (∃ rest, s.port = .reset :: rest ∧ step s = .next { s with port := rest }.resetInput) ∨
    (∃ c rest i, s.port = .command c :: rest ∧ decodeCommand c = .ok i ∧ step s = exec i { s with port := rest }) ∨
    (∃ c rest e, s.port = .command c :: rest ∧ decodeCommand c = .error e ∧ step s = .refused .unknownCommand) := by
  unfold step State.fetch
  rcases h : s.port with _ | ⟨e, rest⟩
  · exact .inl ⟨rfl, rfl⟩
  · rcases e with c | _
    · rcases hd : decodeCommand c with e | i
      · exact .inr (.inr (.inr ⟨c, rest, e, rfl, hd, by simp [hd]⟩))
      · exact .inr (.inr (.inl ⟨c, rest, i, rfl, hd, by simp [hd]⟩))
    · exact .inr (.inl ⟨rest, rfl, rfl⟩)

/-- Only commands are decoded from command words (R79). -/
theorem isCommand_of_decodeCommand {c : CommandWord} {i : Instr} (h : decodeCommand c = .ok i) :
    i.isCommand = true := by
  unfold decodeCommand at h
  split at h <;> cases h <;> rfl

/-- The width of an accepted run is at least 1 (R28, R106). -/
theorem Fits.one_le {v w : Int} (h : Fits v w) : 1 ≤ w := h.1

end Sys2Proof.Machine
end

