-- ==== Sys2Proof/Laws/Runs.lean ====
section
/-! SUPPORT. The state after some cycles of a run, in closed form over `boothRegs` and `boothTrace`, and what `START` and `RUN`
can come to: the lemmas that claims about whole runs cite. -/

namespace Sys2Proof.Machine

/-- The last of some cycles taken off (R180). -/
theorem State.cycleSteps_succ_last (k : Nat) (s : State) : s.cycleSteps (k + 1) = (s.cycleSteps k).cycleStep := by
  induction k generalizing s with
  | zero => rfl
  | succ k ih => rw [State.cycleSteps_succ, ih]; rfl

/-- Answering first and cycling then, or the other way round. -/
theorem State.cycleSteps_answer (k : Nat) (s : State) (r : Response) :
    (s.answer r).cycleSteps k = (s.cycleSteps k).answer r := by
  induction k generalizing s with
  | zero => rfl
  | succ k ih => rw [State.cycleSteps_succ, State.cycleSteps_succ, ← ih]; rfl

/-- The floor plays no part in a run under way (R31, R181). -/
theorem State.cycleSteps_withFloor (k : Nat) (s : State) (f : Int) :
    State.cycleSteps k { s with FLOOR := f } = { s.cycleSteps k with FLOOR := f } := by
  induction k generalizing s with
  | zero => rfl
  | succ k ih => rw [State.cycleSteps_succ, State.cycleSteps_succ, ← ih]; rfl

/-- The records of one more cycle (R60). -/
theorem boothTrace_succ {n : Nat} (m : BitVec n) (t : Triple n) (k : Nat) :
    boothTrace m t (k + 1) = boothTrace m t k ++ [boothRecord m t k] := by
  simp [boothTrace, List.range_succ]

/-- One cycle on registers given one by one (R146). -/
theorem State.cycleStep_of_run {n : Nat} (m : BitVec n) (t : Triple n) (i : Nat) (act : Action) (ab : BitVec n)
    (s : State) (h : s.run = { N := n, A := t.A, Q := t.Q, QM1 := t.QM1, M := m, I := i, ACT := act, AB := ab }) :
    s.cycleStep =
      { s with
        PH := if i = n then .done else .deciding
        run := { N := n, A := (t.decided m).shifted.A, Q := (t.decided m).shifted.Q,
                 QM1 := (t.decided m).shifted.QM1, M := m, I := if i = n then i else i + 1,
                 ACT := recode t.pair, AB := t.A }
        trace := s.trace ++ [{ N := n, step := i, before := t, action := recode t.pair, afterArith := t.decided m,
                               afterShift := (t.decided m).shifted }]
        emitted := s.emitted ++ [{ N := n, step := i, before := t, action := recode t.pair,
                                   afterArith := t.decided m, afterShift := (t.decided m).shifted }] } := by
  obtain ⟨PH, run, FLOOR, ERR, ERRVAL, ERRWIDTH, trace, emitted, rsp, port, NMAX, draws⟩ := s
  simp only at h
  subst h
  rfl

/-- The state after `k` cycles of a run of width `n`, with the action and the accumulator copy of its last cycle. -/
def State.afterCycles (s : State) (m q : Int) (n k : Nat) (act : Action) (ab : BitVec n) : State :=
  { s.beginRun m q n with
    PH := if k = n then .done else .deciding
    run := { N := n, A := (boothRegs (bv n m) (initialRegs (bv n q)) k).A,
             Q := (boothRegs (bv n m) (initialRegs (bv n q)) k).Q,
             QM1 := (boothRegs (bv n m) (initialRegs (bv n q)) k).QM1,
             M := bv n m, I := if k = n then n else k + 1, ACT := act, AB := ab }
    trace := boothTrace (bv n m) (initialRegs (bv n q)) k
    emitted := s.emitted ++ boothTrace (bv n m) (initialRegs (bv n q)) k }

/-- A begun run, cycled `k` times, is `afterCycles` (R151). -/
theorem State.cycleSteps_beginRun (s : State) (m q : Int) (n k : Nat) (hn : 1 ≤ n) (hk : k ≤ n) :
    ∃ act ab, (s.beginRun m q n).cycleSteps k = s.afterCycles m q n k act ab := by
  induction k with
  | zero =>
    refine ⟨Config.freeACT s.draws, Config.freeAB s.draws n, ?_⟩
    have h0 : ¬ (0 = n) := by omega
    simp only [State.afterCycles, if_neg h0, boothTrace, List.range_zero, List.map_nil, List.append_nil]
    rfl
  | succ k ih =>
    obtain ⟨act, ab, h⟩ := ih (by omega)
    refine ⟨recode (boothRegs (bv n m) (initialRegs (bv n q)) k).pair,
      (boothRegs (bv n m) (initialRegs (bv n q)) k).A, ?_⟩
    have hk' : ¬ k = n := by omega
    rw [State.cycleSteps_succ_last, h,
      State.cycleStep_of_run (bv n m) (boothRegs (bv n m) (initialRegs (bv n q)) k) (k + 1) act ab]
    · simp only [State.afterCycles, boothTrace_succ, List.append_assoc]
      by_cases e : k + 1 = n
      · subst e; simp only [if_true]; rfl
      · simp only [if_neg e]; rfl
    · simp only [State.afterCycles, if_neg hk']

/-- A `START` whose width is chosen, supported and fits both operands begins the run (R130, R134). -/
theorem State.start_eq_began {m q : Int} {b : Option Int} {n : Nat} {s : State} (hc : chooseWidth m q b s.FLOOR = n)
    (h : exceedsCapacity s.NMAX n = false) (hm : Fits m n) (hq : Fits q n) :
    s.start m q b = .began (s.beginRun m q n) := by
  simp only [State.start, hc]
  rw [if_neg (by simp [h]), if_neg (not_not.mpr hm), if_neg (not_not.mpr hq)]
  simp

/-- What begins is `beginRun` at a legal width that fits both operands. -/
theorem State.began_of_start {m q : Int} {b : Option Int} {s t : State} (h : s.start m q b = .began t) :
    ∃ n : Nat, 1 ≤ n ∧ chooseWidth m q b s.FLOOR = n ∧ exceedsCapacity s.NMAX n = false ∧ Fits m n ∧ Fits q n ∧
      t = s.beginRun m q n := by
  rcases s.start_cases m q b with ⟨-, h2⟩ | ⟨-, -, h3⟩ | ⟨-, -, -, h3⟩ | ⟨h1, h2, h3, h4⟩
  · rw [h2] at h; cases h
  · rw [h3] at h; cases h
  · rw [h3] at h; cases h
  · rw [h4] at h; cases h
    have := h2.1
    refine ⟨(chooseWidth m q b s.FLOOR).toNat, by omega, by omega, ?_, ?_, ?_, rfl⟩ <;>
      rw [Int.toNat_of_nonneg (by omega)] <;> assumption

/-- `START` and `RUN` side by side: both refused, both raised alike, or the run begun and run to its end. -/
theorem start_run_cases (m q : Int) (b : Option Int) (s : State) :
    (∃ r, exec (.start m q b) s = .refused r ∧ exec (.run m q b) s = .refused r) ∨
    (∃ v, ¬ Fits v (chooseWidth m q b s.FLOOR) ∧ (v = m ∨ v = q) ∧
      exec (.start m q b) s = .next ((s.enterFault v (chooseWidth m q b s.FLOOR)).answer
        (.exception v (chooseWidth m q b s.FLOOR))) ∧
      exec (.run m q b) s = exec (.start m q b) s) ∨
    (∃ (n : Nat) (act : Action) (ab : BitVec n), 1 ≤ n ∧ chooseWidth m q b s.FLOOR = n ∧
      exceedsCapacity s.NMAX n = false ∧ Fits m n ∧ Fits q n ∧
      exec (.start m q b) s = .next ((s.beginRun m q n).answer .ok) ∧
      exec (.run m q b) s = .next ((s.afterCycles m q n n act ab).answer
        (.value (.int (s.afterCycles m q n n act ab).product)))) := by
  simp only [exec, execStart, execRun]
  rcases hs : s.start m q b with r | ⟨v, w, t⟩ | t
  · exact .inl ⟨r, rfl, rfl⟩
  · right; left
    rcases s.start_cases m q b with ⟨-, h2⟩ | ⟨-, h2, h3⟩ | ⟨-, -, h2, h3⟩ | ⟨-, -, -, h4⟩
    · rw [h2] at hs; cases hs
    · rw [h3] at hs; cases hs; exact ⟨_, h2, .inl rfl, rfl, rfl⟩
    · rw [h3] at hs; cases hs; exact ⟨_, h2, .inr rfl, rfl, rfl⟩
    · rw [h4] at hs; cases hs
  · right; right
    obtain ⟨n, h1, h2, h3, h4, h5, rfl⟩ := State.began_of_start hs
    obtain ⟨act, ab, h⟩ := s.cycleSteps_beginRun m q n n h1 le_rfl
    refine ⟨n, act, ab, h1, h2, h3, h4, h5, rfl, ?_⟩
    simp only [State.beginRun_run, h]

end Sys2Proof.Machine
end

