-- ==== Sys2Proof/Laws/Booth.lean ====
section
/-! SUPPORT. Why Booth's algorithm multiplies: the registers after `k` cycles read as integers
(spec/42_booth_stepper.md R153), one lemma per cycle and one per run. -/

namespace Sys2Proof.Machine

/-- A bit is 0 or 1. -/
theorem bit_eq_zero_or_one (x : BitVec 1) : x = 0 ∨ x = 1 := by revert x; decide

/-- The low bit of a register, put in front of another. -/
theorem lowBit_append {n : Nat} (Q : BitVec n) (c : BitVec 1) :
    Q.extractLsb' 0 1 ++ c = (BitVec.ofBool (Q.getLsbD 0)) ++ c := by
  congr 1
  apply BitVec.eq_of_getLsbD_eq; intro i hi; obtain rfl : i = 0 := by omega
  simp

/-- The signed value `q_k` of the `k` multiplier bits consumed so far (R153). -/
def consumedValue {n : Nat} (b : BitVec n) (k : Nat) : Int := (b.extractLsb' 0 k).toInt

/-- The multiplier bit below position `k`; 0 below position 0, where R153 puts `b[-1] = 0`. -/
def bitBelow {n : Nat} (b : BitVec n) (k : Nat) : Bool := decide (1 ≤ k) && b.getLsbD (k-1)

/-- `q_0 = 0` (R153). -/
theorem consumedValue_zero {n : Nat} (b : BitVec n) :
    consumedValue b 0 = 0 := by
  simp [consumedValue, BitVec.toInt, BitVec.of_length_zero]

/-- The consumed bits as an unsigned number, less `2^k` where the top one is 1. -/
theorem consumedValue_eq {n : Nat} (b : BitVec n) (k : Nat) (hk : 1 ≤ k):
    consumedValue b k = (b.toNat % 2 ^ k : Nat) - (if b.getLsbD (k-1) then 2 ^ k else 0) := by
  rw [consumedValue, BitVec.toInt_eq_msb_cond, BitVec.msb_eq_getLsbD_last, BitVec.getLsbD_extractLsb']
  have : k - 1 < k := by omega
  simp only [this, decide_true, Bool.true_and, BitVec.extractLsb'_toNat, Nat.shiftRight_zero, Nat.zero_add]
  split <;> push_cast <;> omega

/-- One more low bit of a vector. -/
theorem toNat_mod_two_pow_succ {n : Nat} (b : BitVec n) (k : Nat) :
    b.toNat % 2 ^ (k+1) = b.toNat % 2 ^ k + (if b.getLsbD k then 2 ^ k else 0) := by
  rw [Nat.mod_pow_succ]
  have : b.getLsbD k = b.toNat.testBit k := rfl
  rw [this, Nat.testBit_eq_decide_div_mod_eq]
  simp only [decide_eq_true_eq]
  have := Nat.mod_lt (b.toNat / 2 ^ k) (show 0 < 2 by omega)
  split
  · next h => rw [h]; simp
  · next h =>
    have : b.toNat / 2 ^ k % 2 = 0 := by omega
    rw [this]; simp

/-- `q_(k+1) = q_k + d_k * 2^k` with the Booth digit `d_k = b[k-1] - b[k]` (R153). -/
theorem consumedValue_succ {n : Nat} (b : BitVec n) (k : Nat) :
    consumedValue b (k+1) = consumedValue b k + ((if bitBelow b k then 1 else 0) - (if b.getLsbD k then 1 else 0)) * 2 ^ k := by
  rw [consumedValue_eq b (k+1) (by omega), toNat_mod_two_pow_succ]
  simp only [Nat.add_sub_cancel]
  rcases Nat.eq_zero_or_pos k with rfl | hk
  · rw [consumedValue_zero]; simp [bitBelow]; cases b.getLsbD 0 <;> simp
  · rw [consumedValue_eq b k hk]
    have : bitBelow b k = b.getLsbD (k-1) := by simp [bitBelow]; omega
    rw [this]
    have hp : (2:Int)^(k+1) = 2 * 2 ^ k := by ring
    cases b.getLsbD k <;> cases b.getLsbD (k-1) <;> simp <;> omega

/-- The range of `q_k` (R153). -/
theorem consumedValue_range {n : Nat} (b : BitVec n) (k : Nat) :
    -2 ^ k ≤ consumedValue b k * 2 ∧ consumedValue b k * 2 ≤ 2 ^ k - 1 ∨ k = 0 := by
  rcases Nat.eq_zero_or_pos k with rfl | hk
  · right; rfl
  · left
    obtain ⟨j, rfl⟩ : ∃ j, k = j + 1 := ⟨k - 1, by omega⟩
    have h := fits_toInt (w := j+1) hk (b.extractLsb' 0 (j+1))
    obtain ⟨-, h2, h3⟩ := h
    have e : (((j+1 : Nat) : Int) - 1).toNat = j := by omega
    rw [e] at h2 h3
    have hp : (2:Int)^(j+1) = 2 * 2 ^ j := by ring
    simp only [consumedValue]; omega

/-- `q_k` is negative exactly when the last consumed bit is 1. -/
theorem consumedValue_neg_iff {n : Nat} (b : BitVec n) (k : Nat) : consumedValue b k < 0 ↔ bitBelow b k = true := by
  rcases Nat.eq_zero_or_pos k with rfl | hk
  · simp [consumedValue_zero, bitBelow]
  · rw [consumedValue_eq b k hk]
    have : bitBelow b k = b.getLsbD (k-1) := by simp [bitBelow]; omega
    rw [this]
    have h := Nat.mod_lt b.toNat (show 0 < 2 ^ k by positivity)
    zify at h
    cases b.getLsbD (k-1) <;> simp <;> omega

/-- `s(A ‖ Q[n-1 : n-k])`: the accumulator with the upper `k` bits of `Q` (R153). -/
def partialProduct {n : Nat} (t : Triple n) (k : Nat) : Int := t.A.toInt * 2 ^ k + ((t.Q.toNat / 2 ^ (n - k) : Nat) : Int)

/-- Items 1 and 2 of R153: the multiplier bits not yet consumed stand in the low bits of `Q`, the last one
consumed in `QM1`. -/
structure Consumed {n : Nat} (b : BitVec n) (t : Triple n) (k : Nat) : Prop where
  low : ∀ j, j < n - k → t.Q.getLsbD j = b.getLsbD (k + j)
  hist : t.QM1.getLsbD 0 = bitBelow b k

/-- A run starts with nothing consumed (R134). -/
theorem consumed_initialRegs {n : Nat} (b : BitVec n) :
    Consumed b (initialRegs b) 0 := ⟨fun j _ => by simp [initialRegs], by simp [initialRegs, bitBelow]⟩

/-- One cycle consumes one bit (R141, R145). -/
theorem Consumed.cycle {n : Nat} (b M : BitVec n) (t : Triple n) (k : Nat) (hk : k < n) (h : Consumed b t k) :
    Consumed b ((t.decided M).shifted) (k+1) := by
  constructor
  · intro j hj
    rw [shifted_Q, BitVec.getLsbD_extractLsb', BitVec.getLsbD_append]
    have h1 : j < n := by omega
    have h2 : 1 + j < n := by omega
    simp only [h1, h2, decide_true, Bool.true_and, if_true, decided_Q]
    rw [h.low _ (by omega)]; congr 1; omega
  · rw [shifted_QM1 (by omega)]
    simp only [decided_Q, BitVec.getLsbD_extractLsb']
    simp [bitBelow, h.low 0 (by omega)]

/-- The action of a step by the two multiplier bits it looks at (R140, R154). -/
theorem Consumed.recode {n : Nat} (b : BitVec n) (t : Triple n) (k : Nat) (hk : k < n) (h : Consumed b t k) :
  recode t.pair =
      match b.getLsbD k, bitBelow b k with
      | true, false => .subtract
      | false, true => .add
      | false, false => .noOp
      | true, true => .noOp := by
  have h1 := h.low 0 (by omega)
  have h2 := h.hist
  rw [Nat.add_zero] at h1
  rw [← h1, ← h2, Triple.pair, lowBit_append]
  cases t.Q.getLsbD 0 <;> rcases bit_eq_zero_or_one t.QM1 with g | g <;> rw [g] <;> rfl

/-- `SHIFT` keeps the partial product and moves one bit of it into `Q` (R145). -/
theorem partialProduct_shifted {n : Nat} (t : Triple n) (k : Nat) (hk : k < n) :
    partialProduct t.shifted (k+1) = partialProduct t k := by
  simp only [partialProduct]
  rw [shifted_A_toInt, shifted_Q_toNat (by omega)]
  obtain ⟨j, rfl⟩ : ∃ j, n = k + j + 1 := ⟨n - k - 1, by omega⟩
  have e1 : k + j + 1 - (k + 1) = j := by omega
  have e2 : k + j + 1 - k = j + 1 := by omega
  have e3 : k + j + 1 - 1 = k + j := by omega
  rw [e1, e2, e3]
  have h1 : ((t.A.toNat % 2 : Nat) : Int) = t.A.toInt % 2 := by
    rw [BitVec.toInt_eq_toNat_cond]; split
    · push_cast; rfl
    · push_cast; rw [pow_succ]; omega
  have h2 : (t.A.toNat % 2 * 2 ^ (k+j) + t.Q.toNat / 2) / 2 ^ j = t.A.toNat % 2 * 2 ^ k + t.Q.toNat / 2 ^ (j+1) := by
    rw [pow_add, ← mul_assoc, Nat.add_comm, Nat.add_mul_div_right _ _ (by positivity), Nat.div_div_eq_div_mul, Nat.add_comm, ← pow_succ']
  rw [h2, Nat.cast_add, Nat.cast_mul, h1]
  have := Int.mul_ediv_add_emod t.A.toInt 2
  push_cast
  conv_rhs => rw [← this]
  ring

/-- The upper `k` bits of `Q` are less than `2^k`. -/
theorem upperBits_lt {n : Nat} (t : Triple n) (k : Nat) (hk : k ≤ n) :
    ((t.Q.toNat / 2 ^ (n - k) : Nat) : Int) < 2 ^ k := by
  have h := t.Q.isLt
  have : t.Q.toNat / 2 ^ (n-k) < 2 ^ k := by
    rw [Nat.div_lt_iff_lt_mul (by positivity), ← pow_add]; rwa [Nat.add_sub_cancel' hk]
  exact_mod_cast this

/-- The accumulator is the partial product over `2^k`, rounded down (R153). -/
theorem accumulator_eq_div {n : Nat} (t : Triple n) (k : Nat) (hk : k ≤ n) :
    t.A.toInt = partialProduct t k / 2 ^ k := by
  have h1 := upperBits_lt t k hk
  have h0 : (0:Int) ≤ ((t.Q.toNat / 2 ^ (n - k) : Nat) : Int) := by positivity
  rw [partialProduct, Int.add_comm, Int.add_mul_ediv_right _ _ (by positivity), Int.ediv_eq_zero_of_lt h0 h1]; simp

/-- `partialProduct` is the signed value of the concatenation it is named after. -/
theorem decodeBits_append_upper {n : Nat} (t : Triple n) (k : Nat) (hk : k ≤ n) :
    decodeBits (t.A ++ t.Q.extractLsb' (n-k) k) = partialProduct t k := by
  have e := BitVec.toInt_append (x := t.A) (y := t.Q.extractLsb' (n-k) k)
  rw [decodeBits_eq_toInt, e, partialProduct]
  split
  · next h =>
    obtain rfl : n = 0 := by simpa using h
    obtain rfl : k = 0 := by omega
    simp [BitVec.of_length_zero]
  · rw [BitVec.extractLsb'_toNat, Nat.shiftRight_eq_div_pow, Nat.mod_eq_of_lt (by have := upperBits_lt t k hk; exact_mod_cast this)]
    ring

/-- One cycle with a multiplicand that is not the most negative: the arithmetic does not wrap, and the partial
product is the multiplicand times the bits consumed (R153 item 3). -/
theorem partialProduct_cycle {n : Nat} (b M : BitVec n) (t : Triple n) (k : Nat) (hk : k < n) (m : Int) (hM : M.toInt = m) (hne : m ≠ -2 ^ (n-1))
    
   (hq : Consumed b t k) (hp : partialProduct t k = m * consumedValue b k) :
   (t.decided M).A.toInt = t.A.toInt + (match recode t.pair with | .subtract => -m | .add => m | .noOp => 0) ∧ partialProduct (t.decided M).shifted (k+1) = m * consumedValue b (k+1) := by
  obtain ⟨w, rfl⟩ : ∃ w, n = w + 1 := ⟨n - 1, by omega⟩
  simp only [Nat.add_sub_cancel] at hne
  set d : Int := (if bitBelow b k then 1 else 0) - (if b.getLsbD k then 1 else 0) with hd
  have hrec := Consumed.recode b t k hk hq
  have hsucc := consumedValue_succ b k
  have hM1 := BitVec.le_toInt M; have hM2 := BitVec.toInt_lt (x := M)
  simp only [Nat.add_sub_cancel] at hM1 hM2
  rw [hM] at hM1 hM2
  have hA := accumulator_eq_div t k (by omega)
  rw [hp] at hA
  have hact : (match recode t.pair with | .subtract => -m | .add => m | .noOp => 0) = d * m := by
    rw [hrec, hd]; cases b.getLsbD k <;> cases bitBelow b k <;> simp
  have hexact : t.A.toInt + d * m = m * consumedValue b (k+1) / 2 ^ k := by
    rw [hsucc, hA]
    have : m * (consumedValue b k + d * 2 ^ k) = m * consumedValue b k + (d * m) * 2 ^ k := by ring
    rw [this, Int.add_mul_ediv_right _ _ (by positivity)]
  have hr := consumedValue_range b (k+1)
  have hr' : -2 ^ k ≤ consumedValue b (k+1) ∧ consumedValue b (k+1) ≤ 2 ^ k := by
    rcases hr with ⟨h1, h2⟩ | h
    · have : (2:Int)^(k+1) = 2 * 2 ^ k := by ring
      omega
    · omega
  have hpos : (0:Int) < 2 ^ k := by positivity
  have habs : |m * consumedValue b (k+1)| ≤ |m| * 2 ^ k := by
    rw [abs_mul]; apply mul_le_mul_of_nonneg_left _ (abs_nonneg _); exact abs_le.mpr hr'
  have hbound : -|m| ≤ t.A.toInt + d * m ∧ t.A.toInt + d * m ≤ |m| := by
    rw [hexact]
    obtain ⟨h1, h2⟩ := abs_le.mp habs
    constructor
    · rw [Int.le_ediv_iff_mul_le hpos]; linarith
    · apply Int.ediv_le_of_le_mul hpos; linarith
  have hm : |m| ≤ 2 ^ w - 1 := by rw [abs_le]; constructor <;> omega
  have hdec : (t.decided M).A.toInt = t.A.toInt + d * m := by
    have hc : ((2 ^ (w+1) : Nat) : Int) = 2 * 2 ^ w := by push_cast; ring
    rw [decided_A]
    revert hbound
    rw [← hact]
    cases recode t.pair
    · simp
    · simp only [applyAction_add]; intro hb; rw [BitVec.toInt_add, hM]; apply Int.bmod_eq_of_le <;> omega
    · simp only [applyAction_subtract]; intro hb; rw [BitVec.toInt_sub, hM]; rw [← Int.sub_eq_add_neg] at hb ⊢; apply Int.bmod_eq_of_le <;> omega
  refine ⟨by rw [hdec, hact], ?_⟩
  rw [partialProduct_shifted _ _ hk]
  have : partialProduct (t.decided M) k = partialProduct t k + d * m * 2 ^ k := by simp only [partialProduct, hdec, decided_Q]; ring
  rw [this, hp, hsucc]; ring

/-- One cycle with the most negative multiplicand: every digit counts with the opposite sign (R153 item 4). -/
theorem partialProduct_cycle_of_mostNegative {n : Nat} (b M : BitVec n) (t : Triple n) (k : Nat) (hk : k < n) (m : Int) (hM : M.toInt = m) (hmin : m = -2 ^ (n-1))
    
   (hq : Consumed b t k) (hp : partialProduct t k = -(m * consumedValue b k)) : partialProduct (t.decided M).shifted (k+1) = -(m * consumedValue b (k+1)) := by
  obtain ⟨w, rfl⟩ : ∃ w, n = w + 1 := ⟨n - 1, by omega⟩
  simp only [Nat.add_sub_cancel] at hmin
  set d : Int := (if bitBelow b k then 1 else 0) - (if b.getLsbD k then 1 else 0) with hd
  have hrec := Consumed.recode b t k hk hq
  have hsucc := consumedValue_succ b k
  have hA := accumulator_eq_div t k (by omega)
  rw [hp] at hA
  have hpos : (0:Int) < 2 ^ w := by positivity
  have hsign : t.A.toInt < 0 ↔ bitBelow b k = true := by
    rw [← consumedValue_neg_iff, hA, hmin, Int.ediv_lt_iff_lt_mul (by positivity)]
    constructor
    · intro h; by_contra g; have : 0 ≤ 2 ^ w * consumedValue b k := by apply mul_nonneg <;> omega
      linarith
    · intro h; have : 2 ^ w * consumedValue b k < 0 := mul_neg_of_pos_of_neg hpos h
      linarith
  have hA1 := BitVec.le_toInt t.A; have hA2 := BitVec.toInt_lt (x := t.A)
  simp only [Nat.add_sub_cancel] at hA1 hA2
  have hdec : (t.decided M).A.toInt = t.A.toInt - d * m := by
    have hc : ((2 ^ (w+1) : Nat) : Int) = 2 * 2 ^ w := by push_cast; ring
    rw [decided_A, hrec, hd]
    cases hb : b.getLsbD k <;> cases hpb : bitBelow b k
    · simp
    · have : t.A.toInt < 0 := hsign.mpr hpb
      simp only [applyAction_add]; rw [BitVec.toInt_add, hM, ← Int.add_bmod_right]
      simp
      rw [Int.bmod_eq_of_le] <;> omega
    · have : ¬ t.A.toInt < 0 := fun h => by rw [hsign, hpb] at h; cases h
      simp only [applyAction_subtract]; rw [BitVec.toInt_sub, hM]
      have e : t.A.toInt - m = (t.A.toInt + m) + ((2^(w+1) : Nat) : Int) := by omega
      rw [e, Int.add_bmod_right]
      simp
      rw [Int.bmod_eq_of_le] <;> omega
    · simp
  rw [partialProduct_shifted _ _ hk]
  have : partialProduct (t.decided M) k = partialProduct t k - d * m * 2 ^ k := by simp only [partialProduct, hdec, decided_Q]; ring
  rw [this, hp, hsucc]; ring

/-- Items 1 and 2 of R153 after `k` cycles. -/
theorem boothRegs_consumed {n : Nat} (b M : BitVec n) (k : Nat) (hk : k ≤ n) :
    Consumed b (boothRegs M (initialRegs b) k) k := by
  induction k with
  | zero => exact consumed_initialRegs b
  | succ k ih => exact Consumed.cycle b M _ k (by omega) (ih (by omega))

/-- The partial product a run starts with. -/
theorem partialProduct_initialRegs {n : Nat} (b : BitVec n) : partialProduct (initialRegs b) 0 = 0 := by
  have : b.toNat / 2 ^ n = 0 := Nat.div_eq_of_lt b.isLt
  simp [partialProduct, initialRegs, this]

/-- Item 3 of R153 after `k` cycles. -/
theorem boothRegs_partialProduct {n : Nat} (b M : BitVec n) (m : Int) (hM : M.toInt = m) (hne : m ≠ -2 ^ (n-1)) (k : Nat) (hk : k ≤ n) :
    partialProduct (boothRegs M (initialRegs b) k) k = m * consumedValue b k := by
  induction k with
  | zero => rw [boothRegs, partialProduct_initialRegs, consumedValue_zero]; ring
  | succ k ih => exact (partialProduct_cycle b M _ k (by omega) m hM hne (boothRegs_consumed b M k (by omega)) (ih (by omega))).2

/-- Item 4 of R153 after `k` cycles. -/
theorem boothRegs_partialProduct_of_mostNegative {n : Nat} (b M : BitVec n) (m : Int) (hM : M.toInt = m) (hne : m = -2 ^ (n-1)) (k : Nat) (hk : k ≤ n) :
    partialProduct (boothRegs M (initialRegs b) k) k = -(m * consumedValue b k) := by
  induction k with
  | zero => rw [boothRegs, partialProduct_initialRegs, consumedValue_zero]; ring
  | succ k ih => exact partialProduct_cycle_of_mostNegative b M _ k (by omega) m hM hne (boothRegs_consumed b M k (by omega)) (ih (by omega))

end Sys2Proof.Machine
end

