-- ==== Sys2Proof/Laws/PerInstr.lean ====
section
/-! SUPPORT. A law of every instruction as syntax: which of the two opcode maps its word belongs to. -/

/-- The word of a command is a command word with a code of `0001 .. 1101` (R72, R73), the word of a micro-operation a recode pair
that selects it (R69, R79). -/
def Sys2Proof.Laws.EncodedMap.Statement (i : Sys2Proof.Instr) : Prop :=
  match Sys2Proof.encode i with
  | .command c => i.isCommand = true ∧ c.cmd.toNat.ble 0b1101 = true ∧ Nat.ble 0b0001 c.cmd.toNat = true
  | .recode p => i.isCommand = false ∧ Sys2Proof.decodeRecode p = i

namespace Sys2Proof

theorem Laws.EncodedMap.start (m q : SignedValue) (b : Option Int) : Laws.EncodedMap.Statement (.start m q b) := by
  cases b <;> exact ⟨rfl, rfl, rfl⟩

theorem Laws.EncodedMap.decide : Laws.EncodedMap.Statement .decide := ⟨rfl, rfl, rfl⟩

theorem Laws.EncodedMap.shift : Laws.EncodedMap.Statement .shift := ⟨rfl, rfl, rfl⟩

theorem Laws.EncodedMap.cycle : Laws.EncodedMap.Statement .cycle := ⟨rfl, rfl, rfl⟩

theorem Laws.EncodedMap.result : Laws.EncodedMap.Statement .result := ⟨rfl, rfl, rfl⟩

theorem Laws.EncodedMap.setfloor (f : Int) : Laws.EncodedMap.Statement (.setfloor f) :=
  ⟨rfl, rfl, rfl⟩

theorem Laws.EncodedMap.run (m q : SignedValue) (b : Option Int) : Laws.EncodedMap.Statement (.run m q b) := by
  cases b <;> exact ⟨rfl, rfl, rfl⟩

theorem Laws.EncodedMap.encode (v : SignedValue) (w : Int) : Laws.EncodedMap.Statement (.encode v w) :=
  ⟨rfl, rfl, rfl⟩

theorem Laws.EncodedMap.decode (bits : Vec) : Laws.EncodedMap.Statement (.decode bits) :=
  ⟨rfl, rfl, rfl⟩

theorem Laws.EncodedMap.negate (bits : Vec) : Laws.EncodedMap.Statement (.negate bits) :=
  ⟨rfl, rfl, rfl⟩

theorem Laws.EncodedMap.minwidth (v : SignedValue) : Laws.EncodedMap.Statement (.minwidth v) :=
  ⟨rfl, rfl, rfl⟩

theorem Laws.EncodedMap.selwidth (vs : List SignedValue) (f : Int) : Laws.EncodedMap.Statement (.selwidth vs f) :=
  ⟨rfl, rfl, rfl⟩

theorem Laws.EncodedMap.pdecode (ab : VecPair) : Laws.EncodedMap.Statement (.pdecode ab) :=
  ⟨rfl, rfl, rfl⟩

theorem Laws.EncodedMap.sub : Laws.EncodedMap.Statement .sub := ⟨rfl, rfl⟩

theorem Laws.EncodedMap.add : Laws.EncodedMap.Statement .add := ⟨rfl, rfl⟩

theorem Laws.EncodedMap.nop00 : Laws.EncodedMap.Statement .nop00 := ⟨rfl, rfl⟩

theorem Laws.EncodedMap.nop11 : Laws.EncodedMap.Statement .nop11 := ⟨rfl, rfl⟩

end Sys2Proof
end

