-- ==== Sys2Proof/Machine/Listing.lean ====
section
/-! DEFINITION. The textual syntax of spec/30_encoding.md R78: a mnemonic and comma-separated operands, vectors as
digit strings with the most significant bit first, an omitted `bitSize` written `auto`. -/

namespace Sys2Proof.Machine

/-- A vector as digits, most significant bit first (R9, R78). -/
def digits (n : Nat) (b : BitVec n) : String :=
  String.join ((List.range n).reverse.map fun i => if b.getLsbD i then "1" else "0")

/-- A `bitSize` operand (R78). -/
def bitSizeText : Option Int → String
  | some n => toString n
  | none => "auto"

/-- An instruction as written in a listing (R78). -/
def listing : Instr → String
  | .start m q b => "START " ++ toString m ++ ", " ++ toString q ++ ", " ++ bitSizeText b
  | .decide => "DECIDE"
  | .shift => "SHIFT"
  | .cycle => "CYCLE"
  | .result => "RESULT"
  | .setfloor f => "SETFLOOR " ++ toString f
  | .run m q b => "RUN " ++ toString m ++ ", " ++ toString q ++ ", " ++ bitSizeText b
  | .encode v w => "ENCODE " ++ toString v ++ ", " ++ toString w
  | .decode b => "DECODE " ++ digits b.len b.bits
  | .negate b => "NEGATE " ++ digits b.len b.bits
  | .minwidth v => "MINWIDTH " ++ toString v
  | .selwidth vs f => "SELWIDTH [" ++ String.intercalate ", " (vs.map toString) ++ "], " ++ toString f
  | .pdecode ab => "PDECODE " ++ digits ab.len ab.high ++ ", " ++ digits ab.len ab.low
  | .sub => "SUB"
  | .add => "ADD"
  | .nop00 | .nop11 => "NOP"

end Sys2Proof.Machine
end

