-- ==== Sys2Proof/Tests/Slice0.lean ====
section
/-! SUPPORT. Tests with results taken from the spec (mostly spec/95_test_vectors.md, whose section each test names), each about
one step on a small state, and for every statement with hypotheses a theorem that shows inputs meeting them. -/

namespace Sys2Proof.Machine

/-! ## Helpers -/

/-- The next state, where there is one. -/
def nextOf : Host.Outcome State Fault Refusal → Option State
  | .next t => some t
  | .fault _ | .refused _ => none

/-- The reason of a refusal. -/
def refusalOf : Host.Outcome State Fault Refusal → Option Refusal
  | .refused r => some r
  | .next _ | .fault _ => none

/-- A state with a run of width `n` in it. -/
def machine (ph : Phase) (n : Nat) (a q : BitVec n) (c : Bit) (m : BitVec n) (i : Nat) : State :=
  { State.reset with PH := ph, run := { N := n, A := a, Q := q, QM1 := c, M := m, I := i, ACT := .noOp, AB := a } }

/-- The triple `A Q QM1` as the vectors write it, each read unsigned. -/
def triple (s : State) : Nat × Nat × Nat := (s.run.A.toNat, s.run.Q.toNat, s.run.QM1.toNat)

/-- What an instruction makes of `A Q QM1`, and the phase and step index it leaves. -/
def outcome (i : Instr) (s : State) : Option ((Nat × Nat × Nat) × Phase × Nat) :=
  (nextOf (exec i s)).map fun t => (triple t, t.PH, t.run.I)

/-- What an instruction answers. -/
def answer (i : Instr) (s : State) : Option Response := (nextOf (exec i s)).bind fun t => t.rsp

/-- The block after reset with one command presented. -/
def presented (c : CommandWord) : State := { State.reset with port := [.command c] }

/-- The block in phase `Fault`, as `START 7, 3, 3` leaves it (section 1.5). -/
def faulted : State := { State.reset with PH := .fault, ERR := .widthOverflow, ERRVAL := 7, ERRWIDTH := 3 }

/-- An instance with `NMAX = 8` (section 2.7). -/
def small : State := { State.reset with NMAX := .upTo 8 (by decide) }

/-! ## WellFormed -/

/-- R74, R124: the sequence of `SELWIDTH` is not empty. -/
theorem test_wellFormed_refuses_empty_sequence : (Instr.selwidth [] 4).wellFormed = false := by decide

theorem test_wellFormed_accepts_sequence : (Instr.selwidth [0] 4).wellFormed = true := by decide

/-! ## Decoding: a word of every row, from R72, R74 and R69 -/

/-- The stepper's words, as the programs P1 and P3 write them (section 3). -/
theorem test_decode_stepper :
    decodeCommand { CommandWord.zero 0b0001#4 with m := 7, q := 3, bsv := 1, bs := 3 } = .ok (.start 7 3 (some 3)) ∧
    decodeCommand (.zero 0b0010#4) = .ok .decide ∧ decodeCommand (.zero 0b0011#4) = .ok .shift ∧
    decodeCommand (.zero 0b0100#4) = .ok .cycle := ⟨rfl, rfl, rfl, rfl⟩

/-- The run interface's and the result decoder's words (P2, P4). -/
theorem test_decode_run :
    decodeCommand { CommandWord.zero 0b0111#4 with m := -8, q := 1, bsv := 0, bs := 99 } = .ok (.run (-8) 1 none) ∧
    decodeCommand { CommandWord.zero 0b0110#4 with f := 8 } = .ok (.setfloor 8) ∧
    decodeCommand (.zero 0b0101#4) = .ok .result ∧
    decodeCommand { CommandWord.zero 0b1101#4 with ab := ⟨5, by decide, 0b11110, 0b10011⟩ } =
      .ok (.pdecode ⟨5, by decide, 0b11110, 0b10011⟩) := ⟨rfl, rfl, rfl, rfl⟩

/-- The function units' words (P4; R72). -/
theorem test_decode_units :
    decodeCommand { CommandWord.zero 0b1000#4 with v := -8, w := 4 } = .ok (.encode (-8) 4) ∧
    decodeCommand { CommandWord.zero 0b1001#4 with bits := ⟨4, by decide, 0b1000⟩ } =
      .ok (.decode ⟨4, by decide, 0b1000⟩) ∧
    decodeCommand { CommandWord.zero 0b1010#4 with bits := ⟨4, by decide, 0b1000⟩ } =
      .ok (.negate ⟨4, by decide, 0b1000⟩) ∧
    decodeCommand { CommandWord.zero 0b1011#4 with v := -8 } = .ok (.minwidth (-8)) ∧
    decodeCommand { CommandWord.zero 0b1100#4 with vs := [15, -3], f := 4 } = .ok (.selwidth [15, -3] 4) :=
  ⟨rfl, rfl, rfl, rfl, rfl⟩

/-- The recode map, first digit `Q[0]` (R69). -/
theorem test_decode_recode :
    decodeRecode 0b10#2 = .sub ∧ decodeRecode 0b01#2 = .add ∧ decodeRecode 0b00#2 = .nop00 ∧
    decodeRecode 0b11#2 = .nop11 := by decide

/-- The unassigned codes (R73). -/
theorem test_decode_unassigned :
    decodeCommand (.zero 0b0000#4) = .error (.unknownCommand 0b0000) ∧
    decodeCommand (.zero 0b1110#4) = .error (.unknownCommand 0b1110) ∧
    decodeCommand (.zero 0b1111#4) = .error (.unknownCommand 0b1111) := ⟨rfl, rfl, rfl⟩

/-- The table's numbering: four bits are a command, two a recode pair (spec/opcode_table.json). -/
theorem test_decodeTableWord :
    decodeTableWord 4 0b0111 = some (.run 0 0 none) ∧ decodeTableWord 4 0b1111 = none ∧
    decodeTableWord 2 0b10 = some .sub ∧ decodeTableWord 2 0b11 = some .nop11 := ⟨rfl, rfl, rfl, rfl⟩

/-- A placed command is what the next step runs: `RUN` of zero operands at the floor's width (V12). -/
theorem test_withFetchWord_command :
    (nextOf (step (State.reset.withFetchWord 4 0b0111))).map (fun t => (triple t, t.run.N, t.rsp)) =
      some ((0, 0, 0), 4, some (.value (.int 0))) := by decide

/-- A placed recode pair is what the next `DECIDE` acts by (R58). -/
theorem test_withFetchWord_recode :
    (nextOf (step ((machine .idle 4 0b0000 0b0110 1 0b0111 1).withFetchWord 2 0b10))).map
      (fun t => (triple t, t.run.ACT, t.PH)) = some ((0b1001, 0b0111, 0), .subtract, .shifting) := by decide

/-- R78 and the listings of section 3. -/
theorem test_listing :
    listing (.start 15 (-3) (some 5)) = "START 15, -3, 5" ∧ listing (.run 2 3 none) = "RUN 2, 3, auto" ∧
    listing (.negate ⟨4, by decide, 0b1000⟩) = "NEGATE 1000" ∧
    listing (.selwidth [15, -3] 4) = "SELWIDTH [15, -3], 4" := by decide

/-! ## The stepper -/

/-- Section 1.2 and R130: `START 15, -3, 5`. -/
theorem test_start :
    outcome (.start 15 (-3) (some 5)) State.reset = some ((0b00000, 0b11101, 0), .deciding, 1) ∧
    (nextOf (exec (.start 15 (-3) (some 5)) faulted)).map (fun t => (t.run.M.toNat, t.run.N, t.ERR)) =
      some (0b01111, 5, .none) := by decide

/-- Section 2.7: `START 9, 12, 4` reports the multiplicand (R203). -/
theorem test_start_overflow :
    (nextOf (exec (.start 9 12 (some 4)) State.reset)).map
      (fun t => (t.PH, t.ERR, t.ERRVAL, t.ERRWIDTH, t.rsp)) =
      some (.fault, .widthOverflow, 9, 4, some (.exception 9 4)) := by decide

/-- Section 2.3: `DECIDE` as a whole. -/
theorem test_decide :
    (nextOf (exec .decide (machine .deciding 5 0b00011 0b11111 0 0b01111 3))).map
      (fun t => (triple t, t.run.AB.toNat, t.run.ACT, t.PH, t.run.I)) =
      some ((0b10100, 0b11111, 0), 0b00011, .subtract, .shifting, 3) := by decide

/-- Section 2.7: two `DECIDE`s in a row are refused. -/
theorem test_decide_wrongPhase :
    refusalOf (exec .decide (machine .shifting 4 0 0 0 0 1)) = some .wrongPhase := by decide

/-- Section 2.4: the last `SHIFT` of scenario S1. -/
theorem test_shift :
    outcome .shift (machine .shifting 5 0b11101 0b00111 1 0b01111 5) = some ((0b11110, 0b10011, 1), .done, 5) := by
  decide

/-- Section 2.4: `SHIFT` at width 1. -/
theorem test_shift_width_one :
    outcome .shift (machine .shifting 1 0b1 0b0 0 0 1) = some ((1, 1, 0), .done, 1) := by decide

/-- R146: the first `CYCLE` of scenario S1 and the record it sends. -/
theorem test_cycle :
    (nextOf (exec .cycle (machine .deciding 5 0b00000 0b11101 0 0b01111 1))).map
      (fun t => (triple t, t.PH, t.run.I, t.trace)) =
      some ((0b11000, 0b11110, 1), .deciding, 2,
        [{ N := 5, step := 1, before := ⟨0b00000, 0b11101, 0⟩, action := .subtract,
           afterArith := ⟨0b10001, 0b11101, 0⟩, afterShift := ⟨0b11000, 0b11110, 1⟩ }]) := by decide

/-! ## The recode map (section 2.3) -/

/-- `-8 - 1` wraps to 7. -/
theorem test_sub : outcome .sub (machine .deciding 4 0b1000 0 0 0b0001 1) = some ((0b0111, 0, 0), .deciding, 1) := by
  decide

/-- The most negative `M`: only `A[3]` flips. -/
theorem test_sub_mostNegative :
    outcome .sub (machine .deciding 4 0b0000 0 0 0b1000 1) = some ((0b1000, 0, 0), .deciding, 1) := by decide

/-- `7 + 7` wraps to -2. -/
theorem test_add : outcome .add (machine .deciding 4 0b0111 0 0 0b0111 1) = some ((0b1110, 0, 0), .deciding, 1) := by
  decide

theorem test_nop :
    exec .nop00 (machine .deciding 4 0b0101 0 0 0b0111 1) = .next (machine .deciding 4 0b0101 0 0 0b0111 1) ∧
    exec .nop11 (machine .deciding 4 0b0101 1 1 0b0111 1) = .next (machine .deciding 4 0b0101 1 1 0b0111 1) := ⟨rfl, rfl⟩

/-! ## The codec (section 2.1) -/

theorem test_encode : answer (.encode (-3) 5) State.reset = some (.value (.bits ⟨5, by decide, 0b11101⟩)) := by
  decide

theorem test_encode_raises :
    answer (.encode 8 4) State.reset = some (.exception 8 4) ∧ answer (.encode 0 0) State.reset = some (.exception 0 0) := by
  decide

theorem test_decode : answer (.decode ⟨5, by decide, 0b11101⟩) State.reset = some (.value (.int (-3))) := by
  decide

theorem test_negate :
    answer (.negate ⟨5, by decide, 0b01111⟩) State.reset = some (.value (.bits ⟨5, by decide, 0b10001⟩)) := by decide

theorem test_negate_mostNegative :
    answer (.negate ⟨4, by decide, 0b1000⟩) State.reset = some (.value (.bits ⟨4, by decide, 0b1000⟩)) := by decide

/-! ## The width selector (section 2.2) -/

theorem test_minwidth :
    answer (.minwidth (-8)) State.reset = some (.value (.int 5)) ∧
    answer (.minwidth 127) State.reset = some (.value (.int 8)) := by decide

theorem test_selwidth :
    answer (.selwidth [100, -100] 4) State.reset = some (.value (.int 8)) ∧
    answer (.selwidth [0, 0] (-3)) State.reset = some (.value (.int 1)) := by decide

theorem test_selwidth_empty : refusalOf (exec (.selwidth [] 4) State.reset) = some .emptySequence := by decide

/-! ## The result decoder and the run interface -/

/-- Section 2.6. -/
theorem test_pdecode :
    answer (.pdecode ⟨4, by decide, 0b1111, 0b1000⟩) State.reset = some (.value (.int (-8))) ∧
    answer (.pdecode ⟨4, by decide, 0b0000, 0b1000⟩) State.reset = some (.value (.int 8)) := by decide

/-- Section 1.2: the end of scenario S1. -/
theorem test_result :
    answer .result (machine .done 5 0b11110 0b10011 1 0b01111 5) = some (.value (.int (-45))) := by decide

theorem test_result_wrongPhase :
    refusalOf (exec .result (machine .deciding 5 0b11110 0b10011 1 0b01111 5)) = some .wrongPhase := by decide

/-- P2: `SETFLOOR 8`, and the width the next automatic `START` chooses. -/
theorem test_setfloor :
    (nextOf (exec (.setfloor 8) State.reset)).map (fun t => t.FLOOR) = some 8 ∧
    (nextOf (exec (.start 2 3 none) { State.reset with FLOOR := 8 })).map (fun t => t.run.N) = some 8 := by decide

/-- Scenario S5: the most negative multiplicand (section 1.6). -/
theorem test_run_mostNegative :
    answer (.run (-8) 1 (some 4)) State.reset = some (.value (.int 8)) ∧
    outcome (.run (-8) 1 (some 4)) State.reset = some ((0b0000, 0b1000, 0), .done, 4) := by decide

/-- Vector V22: actions and product of an automatic run of width 8 (section 2.5). -/
theorem test_run :
    (nextOf (exec (.run 100 (-100) none) faulted)).map
      (fun t => (t.rsp, t.trace.map (fun r => r.action), triple t)) =
      some (some (.value (.int (-10000))),
        [.noOp, .noOp, .subtract, .noOp, .noOp, .add, .noOp, .subtract],
        (0b11011000, 0b11110000, 1)) := by decide +kernel

/-! ## Reset -/

/-- R230, R231: reset in the middle of a run. -/
theorem test_reset :
    (nextOf (step { machine .shifting 4 0b0101 0b1 0 0b0101 2 with FLOOR := 8, port := [.reset] })).map
      (fun t => (t.PH, t.ERR, t.FLOOR, t.trace, t.port)) = some (.idle, .none, 4, [], []) := by decide

/-! ## Witnesses: inputs that meet the hypotheses of each statement, clause by clause

States that are no run's are allowed where the statement is about every state. -/

/-- The hypotheses of the statement about ignored fields. -/
abbrev SameNamedFields (c d : CommandWord) : Prop :=
  c.cmd = d.cmd ∧
  (c.cmd = 0b0001#4 ∨ c.cmd = 0b0111#4 → c.m = d.m ∧ c.q = d.q ∧ c.bsv = d.bsv ∧ (c.bsv = 1 → c.bs = d.bs)) ∧
  (c.cmd = 0b0110#4 → c.f = d.f) ∧
  (c.cmd = 0b1000#4 → c.v = d.v ∧ c.w = d.w) ∧
  (c.cmd = 0b1001#4 ∨ c.cmd = 0b1010#4 → c.bits = d.bits) ∧
  (c.cmd = 0b1011#4 → c.v = d.v) ∧
  (c.cmd = 0b1100#4 → c.vs = d.vs ∧ c.f = d.f) ∧
  (c.cmd = 0b1101#4 → c.ab = d.ab)

/-- A word whose every operand field is set. -/
def fullWord (cmd : BitVec 4) : CommandWord :=
  { cmd := cmd, m := 1, q := 2, bsv := 0, bs := 3, f := 4, v := 5, w := 6, bits := ⟨2, by decide, 1⟩, vs := [7],
    ab := ⟨2, by decide, 1, 2⟩ }

theorem witness_UnnamedOperandFieldsAreIgnored :
    SameNamedFields (fullWord 0b0001) { fullWord 0b0001 with bs := 0, f := 0, v := 0 } ∧
    SameNamedFields { fullWord 0b0111 with bsv := 1 } { fullWord 0b0111 with bsv := 1, w := 0, vs := [0] } ∧
    SameNamedFields (fullWord 0b0110) { fullWord 0b0110 with m := 0 } ∧
    SameNamedFields (fullWord 0b1000) { fullWord 0b1000 with m := 0 } ∧
    SameNamedFields (fullWord 0b1001) { fullWord 0b1001 with m := 0 } ∧
    SameNamedFields (fullWord 0b1010) { fullWord 0b1010 with m := 0 } ∧
    SameNamedFields (fullWord 0b1011) { fullWord 0b1011 with w := 0 } ∧
    SameNamedFields (fullWord 0b1100) { fullWord 0b1100 with v := 0 } ∧
    SameNamedFields (fullWord 0b1101) { fullWord 0b1101 with bits := ⟨1, by decide, 0⟩ } ∧
    SameNamedFields (fullWord 0b0010) (.zero 0b0010) := by
  refine ⟨?_, ?_, ?_, ?_, ?_, ?_, ?_, ?_, ?_, ?_⟩ <;> simp [SameNamedFields, fullWord, CommandWord.zero]

theorem witness_DecodeOfEncodeIsTheInstruction :
    decode (.command (fullWord 0b1101)) = .ok (.pdecode ⟨2, by decide, 1, 2⟩) ∧ decode (.recode 0b11) = .ok .nop11 :=
  ⟨rfl, rfl⟩

theorem witness_UnassignedCodesAreRefused :
    (presented (.zero 0b0000)).port = .command (.zero 0b0000) :: [] ∧
    (presented (fullWord 0b1110)).port = .command (fullWord 0b1110) :: [] ∧
    (presented (fullWord 0b1111)).port = .command (fullWord 0b1111) :: [] ∧
    ¬ ((fullWord 0b0001).cmd = 0b0000#4 ∨ (fullWord 0b0001).cmd = 0b1110#4 ∨ (fullWord 0b0001).cmd = 0b1111#4) ∧
    ¬ ((fullWord 0b1101).cmd = 0b0000#4 ∨ (fullWord 0b1101).cmd = 0b1110#4 ∨ (fullWord 0b1101).cmd = 0b1111#4) := by
  decide

theorem witness_StepRunsTheDecodedCommand :
    (presented (fullWord 0b0001)).port = .command (fullWord 0b0001) :: [] ∧
    decode (.command (fullWord 0b0001)) = .ok (.start 1 2 none) := ⟨rfl, rfl⟩

theorem witness_BlockWaitsWhenNothingIsPresented : State.reset.port = [] := rfl

theorem witness_ResetInAnyPhase : { faulted with port := [.reset] }.port = .reset :: [] := rfl

theorem witness_EncodeAnswersThePatternOrRaises :
    ((1 : Int) ≤ 4 ∧ -2 ^ ((4 : Int) - 1).toNat ≤ (-8 : Int) ∧ (-8 : Int) ≤ 2 ^ ((4 : Int) - 1).toNat - 1) ∧
    ((1 : Int) ≤ 1 ∧ -2 ^ ((1 : Int) - 1).toNat ≤ (0 : Int) ∧ (0 : Int) ≤ 2 ^ ((1 : Int) - 1).toNat - 1) ∧
    ¬ ((1 : Int) ≤ 4 ∧ -2 ^ ((4 : Int) - 1).toNat ≤ (8 : Int) ∧ (8 : Int) ≤ 2 ^ ((4 : Int) - 1).toNat - 1) ∧
    ¬ ((1 : Int) ≤ 0 ∧ -2 ^ ((0 : Int) - 1).toNat ≤ (0 : Int) ∧ (0 : Int) ≤ 2 ^ ((0 : Int) - 1).toNat - 1) := by
  decide

theorem witness_NegateAnswersTheWrappedNegation :
    decodeBits 0b01111#5 ≠ -2 ^ (5 - 1) ∧ decodeBits 0b1000#4 = -2 ^ (4 - 1) ∧ decodeBits 0b1#1 = -2 ^ (1 - 1) := by
  decide

theorem witness_CodecRoundTrips :
    (∃ t, exec (.encode (-8) 4) State.reset = .next t ∧ t.rsp = some (.value (.bits ⟨4, by decide, 0b1000⟩))) ∧
    (∃ t, exec (.decode ⟨4, by decide, 0b1000⟩) State.reset = .next t ∧ t.rsp = some (.value (.int (-8)))) :=
  ⟨⟨_, rfl, by decide⟩, ⟨_, rfl, by decide⟩⟩

theorem witness_AdditionWrapsModuloTwoToTheN :
    (-2 ^ (4 - 1) ≤ decodeBits 0b1111#4 + decodeBits 0b1001#4 ∧
      decodeBits 0b1111#4 + decodeBits 0b1001#4 ≤ 2 ^ (4 - 1) - 1) ∧
    decodeBits 0b1000#4 + decodeBits 0b1111#4 < -2 ^ (4 - 1) ∧
    2 ^ (4 - 1) - 1 < decodeBits 0b0111#4 + decodeBits 0b0001#4 := by decide

theorem witness_MinwidthAnswersTheMagnitudeWidth : (0 : Int) = 0 ∧ (-8 : Int) ≠ 0 := by decide

theorem witness_SelwidthAnswersTheMaximum : ([0] : List Int) ≠ [] ∧ ([] : List Int) = [] := by decide

theorem witness_MinwidthIsSufficientAndWhenMinimal :
    minWidth 7 ≤ 4 ∧ (∀ k : Nat, (7 : Int) ≠ -2 ^ k) ∧ (encodeValue 7 4).isSome = true ∧ (-8 : Int) = -2 ^ 3 ∧
    (encodeValue (-8) 4).isSome = true ∧ (-1 : Int) = -2 ^ 0 ∧ (encodeValue (-1) 1).isSome = true := by
  refine ⟨by decide, fun k => ?_, by decide, by decide, by decide, by decide, by decide⟩
  have : (0 : Int) < 2 ^ k := by positivity
  omega

theorem witness_AutomaticWidthAvoidsTheMostNegative : selWidth [-8, 1] 4 = some 5 ∧ selWidth [0, 0] 0 = some 1 := by
  decide

theorem witness_StartChoosesTheWidth :
    selWidth [15, -3] State.reset.FLOOR = some 5 ∧
    (∃ t, exec (.start (-8) 1 (some 4)) State.reset = .next t) ∧ (∃ t, exec (.run (-8) 1 (some 4)) State.reset = .next t) ∧
    (∃ r, exec (.start 1 1 (some 9)) small = .refused r) ∧ ∃ r, exec (.run 1 1 (some 9)) small = .refused r :=
  ⟨by decide, ⟨_, rfl⟩, ⟨_, rfl⟩, ⟨_, rfl⟩, _, rfl⟩

theorem witness_StartBeginsTheRun :
    chooseWidth 15 (-3) (some 5) State.reset.FLOOR = (5 : Nat) ∧ exceedsCapacity State.reset.NMAX (5 : Nat) = false ∧
    Fits 15 (5 : Nat) ∧ Fits (-3) (5 : Nat) ∧
    chooseWidth (-8) 7 none small.FLOOR = (5 : Nat) ∧ exceedsCapacity small.NMAX (5 : Nat) = false ∧
    Fits (-8) (5 : Nat) ∧ Fits 7 (5 : Nat) := by decide

theorem witness_OverflowEntersFault :
    (chooseWidth 9 12 (some 4) State.reset.FLOOR = 4 ∧ exceedsCapacity State.reset.NMAX 4 = false ∧
      ¬ (Fits 9 4 ∧ Fits 12 4) ∧ ¬ Fits 9 4) ∧
    (chooseWidth 3 7 (some 3) State.reset.FLOOR = 3 ∧ exceedsCapacity State.reset.NMAX 3 = false ∧
      ¬ (Fits 3 3 ∧ Fits 7 3) ∧ Fits 3 3) ∧
    (chooseWidth 1 1 (some 0) State.reset.FLOOR = 0 ∧ exceedsCapacity State.reset.NMAX 0 = false ∧
      ¬ (Fits 1 0 ∧ Fits 1 0) ∧ ¬ Fits 1 0) ∧
    ¬ Fits (-9) 4 ∧ ¬ Fits 0 0 := by decide

theorem witness_WidthBeyondNmaxIsRefused :
    (∃ h, small.NMAX = .upTo 8 h) ∧ ((8 : Nat) : Int) < chooseWidth 1 1 (some 9) small.FLOOR ∧
    ((8 : Nat) : Int) < chooseWidth 128 1 none small.FLOOR ∧
    chooseWidth 1 1 (some 8) small.FLOOR ≤ ((8 : Nat) : Int) ∧ State.reset.NMAX = .unbounded :=
  ⟨⟨_, rfl⟩, by decide, by decide, by decide, rfl⟩

theorem witness_AutomaticSizingNeverRaises :
    (∃ t, exec (.start (-8) (-8) none) State.reset = .next t) ∧ ∃ t, exec (.run (-8) (-8) none) State.reset = .next t :=
  ⟨⟨_, rfl⟩, ⟨_, rfl⟩⟩

theorem witness_DecideActsByTheRecodePair :
    let s := fun (q : BitVec 4) (c : Bit) => machine .deciding 4 0b0011 q c 0b0111 2
    ((s 1 0).PH = .deciding ∧ (s 1 0).run.Q.getLsbD 0 = true ∧ (s 1 0).run.QM1 = 0) ∧
    ((s 6 1).PH = .deciding ∧ (s 6 1).run.Q.getLsbD 0 = false ∧ (s 6 1).run.QM1 = 1) ∧
    ((s 6 0).PH = .deciding ∧ (s 6 0).run.Q.getLsbD 0 = false ∧ (s 6 0).run.QM1 = 0) ∧
    ((s 1 1).PH = .deciding ∧ (s 1 1).run.Q.getLsbD 0 = true ∧ (s 1 1).run.QM1 = 1) ∧
    (machine .shifting 4 0 0 0 0 1).PH ≠ .deciding := by decide

theorem witness_DecideRunsTheMicroOperationOfThePair : (machine .deciding 1 1 1 0 1 1).PH = .deciding := rfl

theorem witness_SubSubtractsTheMultiplicand :
    (1 ≤ (machine .deciding 4 0 0 0 0b1000 1).run.N ∧
      (machine .deciding 4 0 0 0 0b1000 1).run.M.toNat = 2 ^ ((machine .deciding 4 0 0 0 0b1000 1).run.N - 1)) ∧
    (machine .deciding 4 0b0101 0 0 0 1).run.M = 0 ∧
    ((machine .deciding 4 0b0101 1 0 0 1).PH = .deciding ∧
      (machine .deciding 4 0b0101 1 0 0 1).run.Q.getLsbD 0 = true ∧ (machine .deciding 4 0b0101 1 0 0 1).run.QM1 = 0) := by
  decide

theorem witness_AddAddsTheMultiplicand :
    (machine .deciding 4 0 0 0 0b1111 1).run.M = bv 4 (-1) ∧ (machine .deciding 4 0 0 0 0b1111 1).run.M = bv 4 15 ∧
    (machine .deciding 4 0b0101 0 0 0 1).run.M = 0 ∧
    ((machine .deciding 4 0b0101 2 1 0 1).PH = .deciding ∧
      (machine .deciding 4 0b0101 2 1 0 1).run.Q.getLsbD 0 = false ∧
      (machine .deciding 4 0b0101 2 1 0 1).run.QM1 = 1) := ⟨rfl, rfl, rfl, rfl, rfl, rfl⟩

theorem witness_ShiftShiftsTheTripleAndEmits :
    ((machine .shifting 1 1 0 0 0 1).PH = .shifting ∧ 1 ≤ (machine .shifting 1 1 0 0 0 1).run.N) ∧
    ((machine .shifting 5 0b11101 0b00111 1 0b01111 4).PH = .shifting ∧
      1 ≤ (machine .shifting 5 0b11101 0b00111 1 0b01111 4).run.N) ∧
    (machine .done 1 1 0 0 0 1).PH ≠ .shifting := by decide

theorem witness_CycleIsDecideThenShift :
    (machine .deciding 1 0 1 0 1 1).PH = .deciding ∧ (machine .done 1 0 1 0 1 1).PH ≠ .deciding := by decide

/-- An instruction that meets the premise of each arm: one where it completes. -/
theorem witness_OnlyTheseControlTransfers :
    (∃ t, exec (.start 7 3 (some 3)) State.reset = .next t) ∧ (∃ t, exec (.run 0 0 (some 1)) State.reset = .next t) ∧
    (∃ t, exec .decide (machine .deciding 2 0 1 0 1 1) = .next t) ∧
    (∃ t, exec .shift (machine .shifting 2 0 1 0 1 1) = .next t) ∧
    (∃ t, exec .shift (machine .shifting 2 0 1 0 1 2) = .next t) ∧
    (∃ t, exec .cycle (machine .deciding 2 0 1 0 1 2) = .next t) ∧
    (∃ t, exec .result (machine .done 2 0 1 0 1 2) = .next t) ∧ (∃ t, exec (.selwidth [0] 4) State.reset = .next t) ∧
    ∃ t, exec .sub State.reset = .next t :=
  ⟨⟨_, rfl⟩, ⟨_, rfl⟩, ⟨_, rfl⟩, ⟨_, rfl⟩, ⟨_, rfl⟩, ⟨_, rfl⟩, ⟨_, rfl⟩, ⟨_, rfl⟩, ⟨_, rfl⟩⟩

theorem witness_WidthAndMultiplicandAreFixedWithinARun :
    (∃ t, exec .shift (machine .shifting 2 0 1 0 1 1) = .next t) ∧
    ∀ m q b, Instr.shift ≠ .start m q b ∧ Instr.shift ≠ .run m q b :=
  ⟨⟨_, rfl⟩, fun _ _ _ => ⟨by simp, by simp⟩⟩

theorem witness_RegistersAfterSomeCycles :
    (Fits 15 (5 : Nat) ∧ Fits (-3) (5 : Nat) ∧ exceedsCapacity State.reset.NMAX (5 : Nat) = false ∧ 0 ≤ 5 ∧
      (15 : Int) ≠ -2 ^ (5 - 1)) ∧
    (Fits (-8) (4 : Nat) ∧ Fits (-8) (4 : Nat) ∧ exceedsCapacity State.reset.NMAX (4 : Nat) = false ∧ 4 ≤ 4 ∧
      (-8 : Int) = -2 ^ (4 - 1)) ∧
    (Fits 0 (1 : Nat) ∧ Fits (-1) (1 : Nat) ∧ exceedsCapacity small.NMAX (1 : Nat) = false ∧ 1 ≤ 1 ∧
      (0 : Int) ≠ -2 ^ (1 - 1)) := by decide

theorem witness_ActionsFollowTheBitChanges :
    Fits 0 (4 : Nat) ∧ Fits 5 (4 : Nat) ∧ exceedsCapacity State.reset.NMAX (4 : Nat) = false ∧
    Fits (-1) (1 : Nat) ∧ exceedsCapacity State.reset.NMAX (1 : Nat) = false := by decide

theorem witness_ResultAnswersTheProduct :
    (machine .done 5 0b11110 0b10011 1 0b01111 5).PH = .done ∧ State.reset.PH ≠ .done := by decide

theorem witness_ProductIsExact :
    (Fits 15 (5 : Nat) ∧ Fits (-3) (5 : Nat) ∧ exceedsCapacity State.reset.NMAX (5 : Nat) = false ∧
      (15 : Int) ≠ -2 ^ (5 - 1)) ∧
    (Fits (-7) (4 : Nat) ∧ Fits (-8) (4 : Nat) ∧ exceedsCapacity small.NMAX (4 : Nat) = false ∧
      (-7 : Int) ≠ -2 ^ (4 - 1)) := by decide

theorem witness_MostNegativeMultiplicandFlipsTheSign :
    (1 ≤ 4 ∧ Fits 1 (4 : Nat) ∧ exceedsCapacity State.reset.NMAX (4 : Nat) = false) ∧
    (1 ≤ 1 ∧ Fits (-1) (1 : Nat) ∧ exceedsCapacity State.reset.NMAX (1 : Nat) = false) := by decide

theorem witness_AutomaticSizingIsExact :
    (∀ n, selWidth [-8, -8] State.reset.FLOOR = some n → exceedsCapacity State.reset.NMAX n = false) ∧
    (∀ n, selWidth [127, -127] small.FLOOR = some n → exceedsCapacity small.NMAX n = false) := by
  refine ⟨fun n _ => rfl, fun n h => ?_⟩
  obtain rfl : n = 8 := by
    have : selWidth [127, -127] small.FLOOR = some 8 := by decide
    rw [this] at h; exact (Option.some.inj h).symm
  decide

theorem witness_ZeroOperandsKeepTheAccumulatorZero :
    Fits 5 (4 : Nat) ∧ exceedsCapacity State.reset.NMAX (4 : Nat) = false ∧ Fits (-1) (1 : Nat) ∧
    exceedsCapacity State.reset.NMAX (1 : Nat) = false := by decide

theorem witness_RunIsItsExpansion :
    (∃ t, exec (.start 15 (-3) (some 5)) State.reset = .next t ∧ t.rsp = some .ok) ∧
    (∃ t, exec (.start 7 3 (some 3)) State.reset = .next t ∧ t.rsp ≠ some .ok) ∧
    ∃ r, exec (.start 300 1 (some 9)) small = .refused r :=
  ⟨⟨_, rfl, by decide⟩, ⟨_, rfl, by decide⟩, ⟨_, rfl⟩⟩

theorem witness_RunEmitsOneRecordPerCycle :
    chooseWidth 2 3 none State.reset.FLOOR = (4 : Nat) ∧ exceedsCapacity State.reset.NMAX (4 : Nat) = false ∧
    Fits 2 (4 : Nat) ∧ Fits 3 (4 : Nat) ∧
    chooseWidth 0 (-1) (some 1) State.reset.FLOOR = (1 : Nat) ∧ exceedsCapacity State.reset.NMAX (1 : Nat) = false ∧
    Fits 0 (1 : Nat) ∧ Fits (-1) (1 : Nat) := by decide

theorem witness_RunIsDeterministic :
    (State.reset.FLOOR = faulted.FLOOR ∧ State.reset.NMAX = faulted.NMAX ∧
      ∃ t, exec (.run 15 (-3) (some 5)) State.reset = .next t) ∧
    (small.FLOOR = { small with PH := .fault }.FLOOR ∧ small.NMAX = { small with PH := .fault }.NMAX ∧
      ∃ r, exec (.run 1 1 (some 9)) small = .refused r) := ⟨⟨rfl, rfl, _, rfl⟩, rfl, rfl, _, rfl⟩

theorem witness_SetfloorWritesTheFloor :
    (0 : Int) < 1 ∧ (∃ h, small.NMAX = .upTo 8 h) ∧ ((8 : Nat) : Int) < 9 := ⟨by decide, ⟨_, rfl⟩, by decide⟩

theorem witness_FloorIsWrittenOnlyBySetfloorAndReset :
    (∃ t, step (presented { CommandWord.zero 0b0110 with f := 8 }) = .next t ∧
      t.FLOOR ≠ (presented { CommandWord.zero 0b0110 with f := 8 }).FLOOR) ∧
    (∃ t, step { State.reset with FLOOR := 8, port := [.reset] } = .next t ∧ t.FLOOR ≠ 8) :=
  ⟨⟨_, rfl, by decide⟩, ⟨_, rfl, by decide⟩⟩

theorem witness_FunctionUnitsTouchNoRegister :
    (Instr.encode 8 4).wellFormed = true ∧ (Instr.selwidth [0] 4).wellFormed = true ∧
    ((∃ v w, Instr.encode 8 4 = .encode v w) ∧ ∃ vs f, Instr.selwidth [0] 4 = .selwidth vs f) :=
  ⟨rfl, rfl, ⟨_, _, rfl⟩, _, _, rfl⟩

/-- A refusal of every reason. -/
theorem witness_RefusalsAreExactlyThese :
    refusalOf (exec .cycle State.reset) = some .wrongPhase ∧
    refusalOf (exec (.selwidth [] 4) State.reset) = some .emptySequence ∧
    refusalOf (exec (.run 128 1 none) small) = some .widthUnsupported ∧ Instr.cycle.isCommand = true ∧
    (Instr.selwidth [] 4).isCommand = true ∧ (Instr.run 128 1 none).isCommand = true := by decide

theorem witness_AnswersAreOfTheKindTheCommandMapSays :
    (∃ t, exec (.run 7 3 (some 3)) State.reset = .next t) ∧ (∃ t, exec (.run 7 3 (some 4)) State.reset = .next t) ∧
    (∃ t, exec (.encode 8 4) State.reset = .next t) ∧ (∃ t, exec (.encode 7 4) State.reset = .next t) ∧
    ∃ t, exec .nop00 State.reset = .next t := ⟨⟨_, rfl⟩, ⟨_, rfl⟩, ⟨_, rfl⟩, ⟨_, rfl⟩, ⟨_, rfl⟩⟩

theorem witness_ResponseKindCodes :
    answerKind (exec (.setfloor 8) State.reset) = some 0b00#2 ∧ answerKind (exec (.minwidth 7) State.reset) = some 0b01#2 ∧
    answerKind (exec (.encode 8 4) State.reset) = some 0b10#2 ∧ answerKind (exec .shift State.reset) = some 0b11#2 := by
  decide

theorem witness_OnlyEncodeStartAndRunRaise :
    (∃ t, exec (.encode 8 4) State.reset = .next t ∧ t.rsp = some (.exception 8 4)) ∧
    (∃ t, exec (.start 3 7 (some 3)) State.reset = .next t ∧ t.rsp = some (.exception 7 3)) ∧
    (∃ t, exec (.run 1 1 (some 0)) State.reset = .next t ∧ t.rsp = some (.exception 1 0)) :=
  ⟨⟨_, rfl, by decide⟩, ⟨_, rfl, by decide⟩, ⟨_, rfl, by decide⟩⟩

theorem witness_FaultIsLeftOnlyByANewRunOrReset :
    faulted.PH = .fault ∧ faulted.ERR = .widthOverflow ∧
    (∃ t, step { faulted with port := [.reset] } = .next t) ∧
    (∃ t, step { faulted with port := [.command (.zero 0b0001)] } = .next t) ∧
    (∃ t, step { faulted with port := [.command (.zero 0b0111)] } = .next t) ∧
    (∃ t, step { faulted with port := [.command (.zero 0b1011)] } = .next t) :=
  ⟨rfl, rfl, ⟨_, rfl⟩, ⟨_, rfl⟩, ⟨_, rfl⟩, ⟨_, rfl⟩⟩

theorem witness_TraceOutputOnlyGrows :
    (∃ t, step { machine .shifting 2 0 1 0 1 1 with port := [.command (.zero 0b0011)] } = .next t) ∧
    ∃ t, step (presented (.zero 0b0111)) = .next t := ⟨⟨_, rfl⟩, _, rfl⟩

/-- A state with a run in it, not only reset, meets the invariant: `SHIFT` is next, in step 1 of `RUN 1, 1, 2` (V13). -/
theorem witness_StepKeepsTheInvariant :
    ({ machine .shifting 2 0b11 0b01 0 0b01 1 with
        run := { N := 2, A := 0b11, Q := 0b01, QM1 := 0, M := 0b01, I := 1, ACT := .subtract, AB := 0b00 },
        port := [.command (.zero 0b0011)] } : State).Inv ∧
    ∃ t, step { machine .shifting 2 0b11 0b01 0 0b01 1 with
        run := { N := 2, A := 0b11, Q := 0b01, QM1 := 0, M := 0b01, I := 1, ACT := .subtract, AB := 0b00 },
        port := [.command (.zero 0b0011)] } = .next t :=
  ⟨⟨by decide, by decide, by decide, List.nil_suffix, fun _ => ⟨by decide, rfl, by decide, by decide, 0b01#2,
    by decide, fun _ => by decide, by decide⟩⟩, _, rfl⟩

theorem witness_ReadsGiveTheRegisters :
    ((machine .deciding 2 0 1 0 1 1).PH = .deciding ∨ (machine .deciding 2 0 1 0 1 1).PH = .shifting ∨
      (machine .deciding 2 0 1 0 1 1).PH = .done) ∧ faulted.ERR = .widthOverflow := by decide

end Sys2Proof.Machine
end

section
/-! What an answered instruction makes of the state, said once, and the frame facts that follow from it: which steps write the
floor register, the trace output, and the width and multiplicand of a run. -/

namespace Sys2Proof.Machine

/-- The next states `exec` can answer, by instruction (`Effect.of_exec`). It says what becomes of the state, with the guards an
invariant needs, and leaves open which value is answered. -/
inductive Effect (s : State) : Instr → State → Prop
  /-- `START` or `RUN` took the exception (R204) -/
  | raised {i : Instr} {m q : Int} {b : Option Int} (v w : Int) (hi : i = .start m q b ∨ i = .run m q b)
      (unfit : ¬ Fits v w) : Effect s i ((s.enterFault v w).answer (.exception v w))
  /-- `START` began a run (R134) -/
  | began (m q : Int) (b : Option Int) (n : Nat) (pos : 1 ≤ n) (capacity : exceedsCapacity s.NMAX n = false) :
      Effect s (.start m q b) ((s.beginRun m q n).answer .ok)
  /-- `RUN` ran to its end (R180) -/
  | completed (m q : Int) (b : Option Int) (n : Nat) (act : Action) (ab : BitVec n) (r : Response) (pos : 1 ≤ n)
      (capacity : exceedsCapacity s.NMAX n = false) :
      Effect s (.run m q b) ((s.afterCycles m q n n act ab).answer r)
  /-- a Decide sub-step (R141) -/
  | decided (deciding : s.PH = .deciding) : Effect s .decide (s.decideStep.answer .ok)
  /-- a Shift sub-step (R145) -/
  | shifted (shifting : s.PH = .shifting) : Effect s .shift (s.shiftStep.answer .ok)
  /-- a whole cycle (R146) -/
  | cycled (deciding : s.PH = .deciding) : Effect s .cycle (s.cycleStep.answer .ok)
  /-- a write of the floor register (R181) -/
  | floorSet (f : Int) : Effect s (.setfloor f) (State.answer { s with FLOOR := f } .ok)
  /-- nothing but an answer (R171, R184) -/
  | answered (i : Instr) (r : Response) : Effect s i (s.answer r)
  /-- a micro-operation, which is no command (R142 to R144) -/
  | micro {i : Instr} (act : Action) (notCommand : i.isCommand = false) : Effect s i (s.microOp act)

/-- An answered `START` took the exception or began a run. -/
theorem Effect.of_exec_start {m q : Int} {b : Option Int} {s t : State} (h : exec (.start m q b) s = .next t) :
    Effect s (.start m q b) t := by
  obtain ⟨r, hr, -⟩ | ⟨v, hv, -, hs, -⟩ | ⟨n, -, -, hn, -, hc, -, -, hs, -⟩ := start_run_cases m q b s
  · rw [hr] at h; cases h
  · rw [hs] at h; cases h
    exact .raised _ _ (.inl rfl) hv
  · rw [hs] at h; cases h
    exact .began m q b n hn hc

/-- An answered `RUN` took the exception or ran to its end. -/
theorem Effect.of_exec_run {m q : Int} {b : Option Int} {s t : State} (h : exec (.run m q b) s = .next t) :
    Effect s (.run m q b) t := by
  obtain ⟨r, -, hr⟩ | ⟨v, hv, -, hs, hr⟩ | ⟨n, act, ab, hn, -, hc, -, -, -, hr⟩ := start_run_cases m q b s
  · rw [hr] at h; cases h
  · rw [hr, hs] at h; cases h
    exact .raised _ _ (.inr rfl) hv
  · rw [hr] at h; cases h
    exact .completed m q b n act ab _ hn hc

/-- Every answer of `exec` is an `Effect`. -/
theorem Effect.of_exec {i : Instr} {s t : State} (h : exec i s = .next t) : Effect s i t := by
  cases i with
  | start m q b => exact .of_exec_start h
  | run m q b => exact .of_exec_run h
  | decide =>
    simp only [exec, execDecide] at h
    split at h <;> cases h
    exact .decided ‹_›
  | shift =>
    simp only [exec, execShift] at h
    split at h <;> cases h
    exact .shifted ‹_›
  | cycle =>
    simp only [exec, execCycle] at h
    split at h <;> cases h
    exact .cycled ‹_›
  | result =>
    simp only [exec, execResult] at h
    split at h <;> cases h
    exact .answered _ _
  | encode v w =>
    simp only [exec, execEncode] at h
    split at h <;> cases h <;> exact .answered _ _
  | selwidth vs f =>
    simp only [exec, execSelwidth] at h
    split at h <;> cases h
    exact .answered _ _
  | setfloor f => cases h; exact .floorSet f
  | decode b => cases h; exact .answered _ _
  | negate b => cases h; exact .answered _ _
  | minwidth v => cases h; exact .answered _ _
  | pdecode ab => cases h; exact .answered _ _
  | sub => cases h; exact .micro .subtract rfl
  | add => cases h; exact .micro .add rfl
  | nop00 => cases h; exact .micro .noOp rfl
  | nop11 => cases h; exact .micro .noOp rfl

/-- An answered step waited, was a reset, or had the effect of the command it took off the port (R55, R56). -/
theorem step_effect {s t : State} (h : step s = .next t) :
    (s.port = [] ∧ t = s) ∨
    (∃ rest, s.port = .reset :: rest ∧ t = State.resetInput { s with port := rest }) ∨
    (∃ c rest i, s.port = .command c :: rest ∧ decodeCommand c = .ok i ∧ Effect { s with port := rest } i t) := by
  obtain ⟨hp, hs⟩ | ⟨rest, hp, hs⟩ | ⟨c, rest, i, hp, hd, hs⟩ | ⟨c, rest, e, -, -, hs⟩ := step_cases s
  · rw [hs] at h; cases h
    exact .inl ⟨hp, rfl⟩
  · rw [hs] at h; cases h
    exact .inr (.inl ⟨rest, hp, rfl⟩)
  · rw [hs] at h
    exact .inr (.inr ⟨c, rest, i, hp, hd, .of_exec h⟩)
  · rw [hs] at h; cases h

@[simp] theorem State.afterCycles_FLOOR (s : State) (m q : Int) (n k : Nat) (act : Action) (ab : BitVec n) :
    (s.afterCycles m q n k act ab).FLOOR = s.FLOOR := rfl

/-- Only `SETFLOOR` writes the floor register, with its operand (R31). -/
theorem Effect.floor_eq {s t : State} {i : Instr} (h : Effect s i t) : t.FLOOR = s.FLOOR ∨ i = .setfloor t.FLOOR := by
  cases h with
  | floorSet f => exact .inr rfl
  | raised | began | completed | decided | shifted | cycled | answered | micro => exact .inl rfl

/-- What an instruction sends is appended to the output, and ends the trace it leaves (R35, R135). -/
theorem Effect.emitted_append {s t : State} {i : Instr} (h : Effect s i t) :
    ∃ new, t.emitted = s.emitted ++ new ∧ (t.trace = s.trace ++ new ∨ t.trace = new) := by
  cases h with
  | raised | began => exact ⟨[], (List.append_nil _).symm, .inr rfl⟩
  | completed m q b n act ab r =>
    exact ⟨boothTrace (bv n m) (initialRegs (bv n q)) n, rfl, .inr rfl⟩
  | shifted => exact ⟨[s.run.snapshot], rfl, .inl rfl⟩
  | cycled => exact ⟨[s.decideStep.run.snapshot], rfl, .inl rfl⟩
  | decided | floorSet | answered | micro =>
    exact ⟨[], (List.append_nil _).symm, .inl (List.append_nil _).symm⟩

/-- Settles O33: no effect but those of `START` and `RUN` writes `N` or `M`. -/
theorem widthAndMultiplicandAreFixedWithinARun : Obligations.WidthAndMultiplicandAreFixedWithinARun := by
  unfold Obligations.WidthAndMultiplicandAreFixedWithinARun
  intro i s t h notRun
  cases Effect.of_exec h with
  | raised v w hi => exact (hi.elim (notRun _ _ _).1 (notRun _ _ _).2).elim
  | began m q b => exact ((notRun m q b).1 rfl).elim
  | completed m q b => exact ((notRun m q b).2 rfl).elim
  | decided | shifted | cycled | floorSet | answered | micro => exact ⟨_, _, _, _, _, _, rfl⟩

/-- Settles O46, by `Effect.floor_eq` for a command; waiting changes nothing and reset gives 4. -/
theorem floorIsWrittenOnlyBySetfloorAndReset : Obligations.FloorIsWrittenOnlyBySetfloorAndReset := by
  unfold Obligations.FloorIsWrittenOnlyBySetfloorAndReset
  intro s t h changed
  obtain ⟨-, rfl⟩ | ⟨rest, hp, rfl⟩ | ⟨c, rest, i, hp, hd, effect⟩ := step_effect h
  · exact (changed rfl).elim
  · exact .inl ⟨rest, hp, rfl⟩
  · obtain kept | rfl := effect.floor_eq
    · exact (changed kept).elim
    · exact .inr ⟨c, rest, t.FLOOR, hp, hd, rfl⟩

/-- Settles O53, by `Effect.emitted_append` for a command; waiting and reset send nothing. -/
theorem traceOutputOnlyGrows : Obligations.TraceOutputOnlyGrows := by
  unfold Obligations.TraceOutputOnlyGrows
  intro s t h
  obtain ⟨-, rfl⟩ | ⟨rest, -, rfl⟩ | ⟨c, rest, i, -, -, effect⟩ := step_effect h
  · exact ⟨[], (List.append_nil _).symm, .inl (List.append_nil _).symm⟩
  · exact ⟨[], (List.append_nil _).symm, .inr rfl⟩
  · exact effect.emitted_append

end Sys2Proof.Machine
end

section
/-! Waiting, reset, and the views of the registers. -/

namespace Sys2Proof.Machine

/-- With nothing on the port a step waits (R231). -/
theorem step_of_port_nil {s : State} (h : s.port = []) : step s = .next s := by
  simp [step, State.fetch, h]

/-- With reset first on the port a step takes it (R230). -/
theorem step_of_port_reset {s : State} {rest : List PortEvent} (h : s.port = .reset :: rest) :
    step s = .next (State.resetInput { s with port := rest }) := by
  simp [step, State.fetch, h]

/-- Settles O8, by `step_of_port_nil`. -/
theorem blockWaitsWhenNothingIsPresented : Obligations.BlockWaitsWhenNothingIsPresented := by
  unfold Obligations.BlockWaitsWhenNothingIsPresented
  exact fun _ => step_of_port_nil

/-- Settles O9: the step takes the reset, and `State.resetInput` writes the stated values. -/
theorem resetInAnyPhase : Obligations.ResetInAnyPhase := by
  unfold Obligations.ResetInAnyPhase
  intro s rest h
  exact ⟨_, step_of_port_reset h, rfl, rfl, rfl, rfl, rfl, rfl, rfl⟩

/-- Settles O10: the fields of `State.reset`. -/
theorem resetStateHasTheStatedValues : Obligations.ResetStateHasTheStatedValues := by
  unfold Obligations.ResetStateHasTheStatedValues
  exact ⟨rfl, rfl, rfl, rfl⟩

theorem Phase.running_iff (p : Phase) : p.running = true ↔ p = .deciding ∨ p = .shifting ∨ p = .done := by
  cases p <;> simp [Phase.running]

/-- Settles O56: each view selects the register under exactly the condition the statement names. -/
theorem readsGiveTheRegisters : Obligations.ReadsGiveTheRegisters := by
  unfold Obligations.ReadsGiveTheRegisters
  intro s
  refine ⟨rfl, rfl, rfl, fun hph => ?_, fun herr => ⟨if_pos herr, if_pos herr⟩⟩
  have hrun := s.PH.running_iff.mpr hph
  exact ⟨if_pos hrun, if_pos hrun, if_pos hrun⟩

end Sys2Proof.Machine
end

section
/-! The invariant of the block: each operation on the state keeps it, so every step does. -/

namespace Sys2Proof.Machine

/-- The invariant speaks neither of the answer nor of what is presented. -/
@[simp] theorem State.answer_inv {s : State} {r : Response} : (s.answer r).Inv ↔ s.Inv := Iff.rfl

@[simp] theorem State.withPort_inv {s : State} {rest : List PortEvent} :
    State.Inv { s with port := rest } ↔ s.Inv := Iff.rfl

@[simp] theorem State.withFloor_inv {s : State} {f : Int} : State.Inv { s with FLOOR := f } ↔ s.Inv := Iff.rfl

/-- `Idle` with no error and an empty trace needs nothing else: no run exists there (R36). -/
theorem State.inv_of_idle {s : State} (hph : s.PH = .idle) (herr : s.ERR = .none) (htrace : s.trace = []) : s.Inv := by
  simp [State.Inv, Phase.running, hph, herr, htrace]

/-- The fault state is entered with a real overflow and no run (R204). -/
theorem State.enterFault_inv (s : State) {v w : Int} (unfit : ¬ Fits v w) : (s.enterFault v w).Inv :=
  ⟨iff_of_true rfl rfl, fun _ => unfit, fun _ => rfl, List.nil_suffix, fun h => nomatch h⟩

/-- While a run exists, what is left of the invariant besides `RunInv` is `ERR = 0` and the end of the output. -/
theorem State.inv_iff_of_running {s : State} (hrun : s.PH.running = true) :
    s.Inv ↔ s.ERR = .none ∧ s.trace <:+ s.emitted ∧ s.RunInv := by
  have hne : s.PH ≠ .fault := fun hfault => by simp [hfault, Phase.running] at hrun
  cases herr : s.ERR <;> simp [State.Inv, hrun, hne, herr]

/-- Between two cycles, or after the last, `k` cycles are done and `(PH, I)` says so (R150, R151). -/
theorem State.inv_of_cyclesDone {s : State} {q : BitVec s.run.N} {k : Nat} (herr : s.ERR = .none)
    (hsuffix : s.trace <:+ s.emitted) (pos : 1 ≤ s.run.N) (capacity : exceedsCapacity s.NMAX s.run.N = false)
    (hk : k ≤ s.run.N) (hPH : s.PH = if k = s.run.N then .done else .deciding)
    (hI : s.run.I = if k = s.run.N then k else k + 1)
    (hregs : s.run.triple = boothRegs s.run.M (initialRegs q) k)
    (htrace : s.trace = boothTrace s.run.M (initialRegs q) k) : s.Inv := by
  by_cases last : k = s.run.N
  · subst last
    rw [if_pos rfl] at hPH hI
    rw [State.inv_iff_of_running (by rw [hPH]; rfl)]
    exact ⟨herr, hsuffix, pos, capacity, by omega, by omega, q, by simp [hPH], by simp [hPH],
      fun _ => ⟨hI, hregs, htrace⟩⟩
  · rw [if_neg last] at hPH hI
    rw [State.inv_iff_of_running (by rw [hPH]; rfl)]
    refine ⟨herr, hsuffix, pos, capacity, by omega, by omega, q, fun _ => ?_, by simp [hPH], by simp [hPH]⟩
    rw [hI, Nat.add_sub_cancel]
    exact ⟨hregs, htrace⟩

/-- Some cycles into a run the registers and the trace are `boothRegs` and `boothTrace` by construction. -/
theorem State.afterCycles_inv (s : State) (m q : Int) {n k : Nat} (act : Action) (ab : BitVec n) (pos : 1 ≤ n)
    (hk : k ≤ n) (capacity : exceedsCapacity s.NMAX n = false) : (s.afterCycles m q n k act ab).Inv := by
  have hI : (s.afterCycles m q n k act ab).run.I = if k = n then k else k + 1 := by
    simp only [State.afterCycles]
    split
    · next last => exact last.symm
    · rfl
  exact State.inv_of_cyclesDone (q := bv n q) rfl (List.suffix_append _ _) pos capacity hk rfl hI rfl rfl

/-- A begun run is a run after no cycle. -/
theorem State.beginRun_inv (s : State) (m q : Int) {n : Nat} (pos : 1 ≤ n)
    (capacity : exceedsCapacity s.NMAX n = false) : (s.beginRun m q n).Inv := by
  obtain ⟨act, ab, h⟩ := s.cycleSteps_beginRun m q n 0 pos n.zero_le
  rw [State.cycleSteps_zero] at h
  rw [h]
  exact s.afterCycles_inv m q act ab pos n.zero_le capacity

/-- The Decide sub-step applies `Triple.decided` to the registers and keeps what it replaced in `AB` and `ACT`. -/
theorem State.decideStep_inv {s : State} (h : s.Inv) (deciding : s.PH = .deciding) : s.decideStep.Inv := by
  rw [State.inv_iff_of_running (by rw [deciding]; rfl)] at h
  obtain ⟨herr, hsuffix, hN, hcap, hI, hIN, q, hdec, -, -⟩ := h
  obtain ⟨hregs, htrace⟩ := hdec deciding
  refine (State.inv_iff_of_running rfl).mpr ⟨herr, hsuffix, hN, hcap, hI, hIN, q, nofun, fun _ => ⟨?_, ?_, ?_, htrace⟩, nofun⟩
  · rw [State.decideStep_triple, hregs]; rfl
  · exact congrArg Triple.A hregs
  · exact congrArg (fun t => recode t.pair) hregs

/-- The record of a Shift sub-step, after the Decide sub-step of cycle `k + 1`, is that cycle's record. -/
theorem Run.snapshot_eq_boothRecord {r : Run} {t0 : Triple r.N} {k : Nat} (hI : r.I = k + 1)
    (hregs : r.triple = (boothRegs r.M t0 k).decided r.M) (hAB : r.AB = (boothRegs r.M t0 k).A)
    (hACT : r.ACT = recode (boothRegs r.M t0 k).pair) : r.snapshot = boothRecord r.M t0 k := by
  simp only [Run.snapshot, boothRecord, boothRegs, hI, hregs, hAB, hACT]
  rfl

/-- The Shift sub-step completes cycle `I`: it sends that cycle's record and leaves the registers after it. -/
theorem State.shiftStep_inv {s : State} (h : s.Inv) (shifting : s.PH = .shifting) : s.shiftStep.Inv := by
  rw [State.inv_iff_of_running (by rw [shifting]; rfl)] at h
  obtain ⟨herr, ⟨earlier, hout⟩, hN, hcap, hI, hIN, q, -, hshift, -⟩ := h
  obtain ⟨hregs, hAB, hACT, htrace⟩ := hshift shifting
  obtain ⟨k, hk⟩ : ∃ k, s.run.I = k + 1 := ⟨s.run.I - 1, by omega⟩
  rw [hk, Nat.add_sub_cancel] at hregs hAB hACT htrace
  have hrecord := Run.snapshot_eq_boothRecord hk hregs hAB hACT
  refine State.inv_of_cyclesDone (q := q) (k := k + 1) herr ?suffix hN hcap (hk ▸ hIN) ?phase ?index ?regs ?trace
  case suffix => exact ⟨earlier, by rw [State.shiftStep_trace, State.shiftStep_emitted, ← hout, List.append_assoc]⟩
  case phase => rw [State.shiftStep_PH, hk]; rfl
  case index => rw [State.shiftStep_run, hk]
  case regs => rw [State.shiftStep_triple, hregs]; rfl
  case trace => rw [State.shiftStep_trace, htrace, hrecord, ← boothTrace_succ]; rfl

/-- A cycle is the two sub-steps one after the other (R146). -/
theorem State.cycleStep_inv {s : State} (h : s.Inv) (deciding : s.PH = .deciding) : s.cycleStep.Inv :=
  State.shiftStep_inv (State.decideStep_inv h deciding) rfl

/-- Every command keeps the invariant. The micro-operations alone do not: no caller can issue them (R79). -/
theorem Effect.inv {s t : State} {i : Instr} (effect : Effect s i t) (command : i.isCommand = true) (h : s.Inv) :
    t.Inv := by
  cases effect with
  | raised v w _ unfit => exact State.answer_inv.mpr (s.enterFault_inv unfit)
  | began m q b n pos capacity => exact State.answer_inv.mpr (s.beginRun_inv m q pos capacity)
  | completed m q b n act ab r pos capacity =>
    exact State.answer_inv.mpr (s.afterCycles_inv m q act ab pos le_rfl capacity)
  | decided deciding => exact State.answer_inv.mpr (State.decideStep_inv h deciding)
  | shifted shifting => exact State.answer_inv.mpr (State.shiftStep_inv h shifting)
  | cycled deciding => exact State.answer_inv.mpr (State.cycleStep_inv h deciding)
  | floorSet f => exact State.answer_inv.mpr (State.withFloor_inv.mpr h)
  | answered i r => exact State.answer_inv.mpr h
  | micro act notCommand => rw [command] at notCommand; cases notCommand

/-- Settles O54: waiting changes nothing, reset ends in `Idle`, and a command word decodes to a command, whose effect keeps
the invariant (`Effect.inv`). -/
theorem stepKeepsTheInvariant : Obligations.StepKeepsTheInvariant := by
  unfold Obligations.StepKeepsTheInvariant
  intro s t hinv h
  obtain ⟨-, rfl⟩ | ⟨rest, -, rfl⟩ | ⟨c, rest, i, -, hd, effect⟩ := step_effect h
  · exact hinv
  · exact State.inv_of_idle rfl rfl rfl
  · exact effect.inv (isCommand_of_decodeCommand hd) (State.withPort_inv.mpr hinv)

/-- Settles O55, by `State.inv_of_idle`. -/
theorem resetMeetsTheInvariant : Obligations.ResetMeetsTheInvariant := by
  unfold Obligations.ResetMeetsTheInvariant
  exact State.inv_of_idle rfl rfl rfl

end Sys2Proof.Machine
end

section
/-! The command port, the recode pair and the trace output as a caller uses them: which instruction a step runs, which
micro-operation `DECIDE` runs, and what a successful `RUN` sends. -/

namespace Sys2Proof.Machine

/-- The recode map and the action table agree: the micro-operation of a pair carries out the action of that pair (R69, R140). -/
theorem exec_decodeRecode (p : BitVec 2) (s : State) : exec (decodeRecode p) s = .next (s.microOp (recode p)) := by
  have four : ∀ p : BitVec 2, p = 0b10#2 ∨ p = 0b01#2 ∨ p = 0b00#2 ∨ p = 0b11#2 := by decide
  obtain rfl | rfl | rfl | rfl := four p <;> rfl

/-- Settles O26: the action of the pair gives the accumulator on both sides, by `exec_decodeRecode` for the micro-operation and
by `execDecide_eq` for `DECIDE`. -/
theorem decideRunsTheMicroOperationOfThePair : Obligations.DecideRunsTheMicroOperationOfThePair := by
  unfold Obligations.DecideRunsTheMicroOperationOfThePair
  intro s deciding
  exact ⟨recode s.run.triple.pair, applyAction (recode s.run.triple.pair) s.run.A s.run.M,
    exec_decodeRecode s.run.triple.pair s, execDecide_eq deciding⟩

@[simp] theorem boothTrace_length {n : Nat} (m : BitVec n) (t : Triple n) (k : Nat) : (boothTrace m t k).length = k := by
  simp [boothTrace]

/-- The steps are numbered from 1, in order (R60). -/
theorem boothTrace_steps {n : Nat} (m : BitVec n) (t : Triple n) (k : Nat) :
    (boothTrace m t k).map (fun x => x.step) = (List.range k).map (fun j => j + 1) := by
  rw [boothTrace, List.map_map]
  rfl

theorem boothTrace_width {n : Nat} {m : BitVec n} {t : Triple n} {k : Nat} {x : Snapshot} (hx : x ∈ boothTrace m t k) :
    x.N = n := by
  obtain ⟨j, -, rfl⟩ := List.mem_map.mp hx
  rfl

/-- A `RUN` whose width is chosen, supported and fits both operands is `n` cycles of the begun run and the product (R180). -/
theorem exec_run_eq_afterCycles {m q : Int} {b : Option Int} {n : Nat} {s : State}
    (hc : chooseWidth m q b s.FLOOR = n) (capacity : exceedsCapacity s.NMAX n = false) (hm : Fits m n)
    (hq : Fits q n) : ∃ act ab, exec (.run m q b) s =
      .next ((s.afterCycles m q n n act ab).answer (.value (.int (s.afterCycles m q n n act ab).product))) := by
  obtain ⟨act, ab, cycles⟩ := s.cycleSteps_beginRun m q n n (Int.ofNat_le.mp hm.one_le) le_rfl
  refine ⟨act, ab, ?_⟩
  simp only [exec, execRun, State.start_eq_began hc capacity hm hq, State.beginRun_run, cycles]

/-- A run answered after all its `n` cycles is `Done`, its trace is what it sent, and the state outside the run is as `START`
found it (R150, R183). -/
theorem State.afterCycles_last_answer (s : State) (m q : Int) (n : Nat) (act : Action) (ab : BitVec n) (r : Response) :
    (s.afterCycles m q n n act ab).answer r =
      { s with PH := .done, run := (s.afterCycles m q n n act ab).run, ERR := .none,
               trace := boothTrace (bv n m) (initialRegs (bv n q)) n,
               emitted := s.emitted ++ boothTrace (bv n m) (initialRegs (bv n q)) n,
               rsp := some r, draws := s.draws + 1 } := by
  have done : (s.afterCycles m q n n act ab).PH = .done := if_pos rfl
  rw [← done]
  rfl

/-- Settles O43: the run is `State.afterCycles` at `k = n`, and its records are `boothTrace`. -/
theorem runEmitsOneRecordPerCycle : Obligations.RunEmitsOneRecordPerCycle := by
  unfold Obligations.RunEmitsOneRecordPerCycle
  intro m q b n s hc capacity hm hq
  obtain ⟨act, ab, hrun⟩ := exec_run_eq_afterCycles hc capacity hm hq
  refine ⟨(s.afterCycles m q n n act ab).run, boothTrace (bv n m) (initialRegs (bv n q)) n,
    (s.afterCycles m q n n act ab).product, s.draws + 1, ?done, rfl, if_pos rfl, boothTrace_length _ _ _,
    boothTrace_steps _ _ _, fun _ => boothTrace_width⟩
  case done => exact hrun.trans (congrArg Host.Outcome.next (s.afterCycles_last_answer m q n act ab _))

/-- With a command word first on the port a step runs the instruction it decodes to (R55, R56). -/
theorem step_of_port_command {s : State} {c : CommandWord} {rest : List PortEvent} {i : Instr}
    (h : s.port = .command c :: rest) (hd : decodeCommand c = .ok i) : step s = exec i { s with port := rest } := by
  simp [step, State.fetch, h, hd]

/-- Settles O7, by `step_of_port_command`: a word presented at the port is one of the command map. -/
theorem stepRunsTheDecodedCommand : Obligations.StepRunsTheDecodedCommand := by
  unfold Obligations.StepRunsTheDecodedCommand
  intro s c rest i h hd
  exact step_of_port_command h hd

end Sys2Proof.Machine
end

section
/-! The two opcode maps: what a word decodes to, and which word stands for an instruction. -/

namespace Sys2Proof

/-- Laying out an optional `bitSize` leaves the code alone (R74). -/
@[simp] theorem CommandWord.withBitSize_cmd (c : CommandWord) (b : Option Int) : (c.withBitSize b).cmd = c.cmd := by
  cases b <;> rfl

/-- `bs` plays no part when `bsv = 0` (R74). -/
theorem CommandWord.bitSize_congr {c d : CommandWord} (hbsv : c.bsv = d.bsv) (hbs : c.bsv = 1 → c.bs = d.bs) :
    c.bitSize = d.bitSize := by
  unfold CommandWord.bitSize
  rw [← hbsv]
  split
  · next explicit => rw [hbs explicit]
  · rfl

/-- The word of an instruction decodes to it; an optional `bitSize` is read back whether it is given or not (R74). -/
theorem decode_encode (i : Instr) : decode (encode i) = .ok i := by
  cases i with
  | start m q b | run m q b => cases b <;> rfl
  | decide | shift | cycle | result | setfloor | encode | decode | negate | minwidth | selwidth | pdecode => rfl
  | sub | add | nop00 | nop11 => rfl

/-- The word of a pair's micro-operation is that pair (R69). -/
theorem encode_decodeRecode (p : BitVec 2) : encode (decodeRecode p) = .recode p := by
  revert p; decide

/-- The word of a decoded command is a command word of the same code (R72). -/
theorem encode_of_decodeCommand {c : CommandWord} {i : Instr} (h : decodeCommand c = .ok i) :
    ∃ d, encode i = .command d ∧ c.cmd = d.cmd := by
  unfold decodeCommand at h
  split at h <;> cases h
  all_goals
    next code => exact ⟨_, rfl, BitVec.eq_of_toNat_eq (by simpa [CommandWord.zero] using code)⟩

/-- The decoder refuses exactly the three unassigned codes, by name (R73). -/
theorem decodeCommand_eq_error_iff {c : CommandWord} {e : DecodeError} :
    decodeCommand c = .error e ↔
      (c.cmd = 0b0000#4 ∨ c.cmd = 0b1110#4 ∨ c.cmd = 0b1111#4) ∧ e = .unknownCommand c.cmd := by
  constructor
  · intro h
    unfold decodeCommand at h
    split at h <;> cases h
    refine ⟨?_, rfl⟩
    have fourBits := c.cmd.isLt
    simp only [imp_false, ← BitVec.toNat_inj, BitVec.toNat_ofNat] at *
    omega
  · rintro ⟨code | code | code, rfl⟩ <;> simp [decodeCommand, code]

end Sys2Proof
end

section
/-! The statements about the two opcode maps and the code tables. -/

namespace Sys2Proof.Machine

/-- With a command word of no instruction first on the port a step is refused (R73). -/
theorem step_of_port_unknown {s : State} {c : CommandWord} {rest : List PortEvent} {e : DecodeError}
    (h : s.port = .command c :: rest) (hd : decodeCommand c = .error e) : step s = .refused .unknownCommand := by
  simp [step, State.fetch, h, hd]

/-- Settles O2: `decode_encode`, and each map read backwards (`encode_of_decodeCommand`, `encode_decodeRecode`). -/
theorem decodeOfEncodeIsTheInstruction : Obligations.DecodeOfEncodeIsTheInstruction := by
  unfold Obligations.DecodeOfEncodeIsTheInstruction
  refine ⟨decode_encode, fun w i h => ?_⟩
  cases w with
  | command c =>
    obtain ⟨d, hd, code⟩ := encode_of_decodeCommand h
    rw [hd]
    exact code
  | recode p =>
    cases h
    rw [encode_decodeRecode]

/-- Settles O1: the decoder evaluated on each word. -/
theorem wordsOfTheTablesDecode : Obligations.WordsOfTheTablesDecode := by
  unfold Obligations.WordsOfTheTablesDecode
  exact ⟨rfl, rfl, rfl, rfl, rfl, rfl, rfl, rfl, rfl, rfl, rfl, rfl, rfl, rfl, rfl, rfl, rfl, rfl⟩

/-- Settles O3, code by code in the order of R72: the row of a code builds its instruction from the fields on which the two
words agree. -/
theorem unnamedOperandFieldsAreIgnored : Obligations.UnnamedOperandFieldsAreIgnored := by
  unfold Obligations.UnnamedOperandFieldsAreIgnored
  intro c d hcmd hrun hfloor hencode hbits hvalue hseq hpair
  have code_eq {k : Nat} (h : c.cmd.toNat = k) : c.cmd = BitVec.ofNat 4 k := by simp [← h]
  have run_row (h : c.cmd = 0b0001#4 ∨ c.cmd = 0b0111#4) : c.m = d.m ∧ c.q = d.q ∧ c.bitSize = d.bitSize := by
    obtain ⟨hm, hq, hbsv, hbs⟩ := hrun h
    exact ⟨hm, hq, CommandWord.bitSize_congr hbsv hbs⟩
  simp only [decode, decodeCommand, ← hcmd]
  split
  next code =>
    obtain ⟨hm, hq, hb⟩ := run_row (.inl (code_eq code))
    rw [hm, hq, hb]
  · rfl
  · rfl
  · rfl
  · rfl
  next code => rw [hfloor (code_eq code)]
  next code =>
    obtain ⟨hm, hq, hb⟩ := run_row (.inr (code_eq code))
    rw [hm, hq, hb]
  next code =>
    obtain ⟨hv, hw⟩ := hencode (code_eq code)
    rw [hv, hw]
  next code => rw [hbits (.inl (code_eq code))]
  next code => rw [hbits (.inr (code_eq code))]
  next code => rw [hvalue (code_eq code)]
  next code =>
    obtain ⟨hvs, hf⟩ := hseq (code_eq code)
    rw [hvs, hf]
  next code => rw [hpair (code_eq code)]
  · rfl

/-- Settles O4: the decoder's errors are exactly these codes, and what it decodes is a command. -/
theorem unassignedCodesAreRefused : Obligations.UnassignedCodesAreRefused := by
  unfold Obligations.UnassignedCodesAreRefused
  refine ⟨fun s c rest h code => step_of_port_unknown h (decodeCommand_eq_error_iff.mpr ⟨code, rfl⟩), fun c code => ?_⟩
  cases hd : decodeCommand c with
  | error e => exact (code (decodeCommand_eq_error_iff.mp hd).1).elim
  | ok i => exact ⟨i, hd, isCommand_of_decodeCommand hd⟩

/-- Settles O5: the tables of codes, evaluated action by action and phase by phase. -/
theorem actionAndPhaseCodes : Obligations.ActionAndPhaseCodes := by
  unfold Obligations.ActionAndPhaseCodes
  refine ⟨rfl, rfl, rfl, ?actions, rfl, rfl, rfl, rfl, rfl, rfl, rfl, rfl, rfl, ?phases, rfl, rfl⟩
  case actions => intro a; cases a <;> decide
  case phases => intro p; cases p <;> decide

end Sys2Proof.Machine
end

section
/-! The layout of a snapshot record, field by field (R75). -/

namespace Sys2Proof.Machine

variable {n : Nat}

/-- Bits above the low part of a concatenation are bits of its high part. -/
theorem extractLsb'_append_high {w v : Nat} (hi : BitVec w) (lo : BitVec v) {j i k : Nat} (hj : j = v + i) :
    (hi ++ lo).extractLsb' j k = hi.extractLsb' i k := by
  subst hj
  rw [BitVec.extractLsb'_append_eq_of_le (Nat.le_add_right v i), Nat.add_sub_cancel_left]

/-! ## The registers within a triple (R66) -/

theorem concat_extract_QM1 (t : Triple n) : t.concat.extractLsb' 0 1 = t.QM1 :=
  BitVec.extractLsb'_append_eq_right

theorem concat_extract_Q (t : Triple n) : t.concat.extractLsb' 1 n = t.Q := by
  rw [Triple.concat, extractLsb'_append_high (i := 0) _ _ rfl, BitVec.extractLsb'_append_eq_right]

theorem concat_extract_A (t : Triple n) : t.concat.extractLsb' (n + 1) n = t.A := by
  rw [Triple.concat, extractLsb'_append_high _ _ (Nat.add_comm n 1), BitVec.extractLsb'_append_eq_left]

/-! ## The parts of a record (R75) -/

variable (r : Snapshot) {j i k : Nat}

theorem wire_extract_afterShift (h : i + k ≤ r.N + r.N + 1) :
    r.wire.2.extractLsb' i k = r.afterShift.concat.extractLsb' i k :=
  BitVec.extractLsb'_append_eq_of_add_le h

theorem wire_extract_afterArith (hj : j = r.N + r.N + 1 + i) (h : i + k ≤ r.N + r.N + 1) :
    r.wire.2.extractLsb' j k = r.afterArith.concat.extractLsb' i k := by
  rw [Snapshot.wire, extractLsb'_append_high _ _ hj, BitVec.extractLsb'_append_eq_of_add_le h]

theorem wire_extract_action : r.wire.2.extractLsb' (4 * r.N + 2) 2 = actionCode r.action := by
  rw [Snapshot.wire, extractLsb'_append_high (i := r.N + r.N + 1) _ _ (by omega),
    extractLsb'_append_high (i := 0) _ _ rfl, BitVec.extractLsb'_append_eq_right]

theorem wire_extract_before (hj : j = 4 * r.N + 4 + i) :
    r.wire.2.extractLsb' j k = r.before.concat.extractLsb' i k := by
  rw [Snapshot.wire, extractLsb'_append_high (i := r.N + r.N + 1 + 2 + i) _ _ (by omega),
    extractLsb'_append_high (i := 2 + i) _ _ (by omega), extractLsb'_append_high _ _ rfl]

/-- Settles O6: the part of the record a bit range lies in, then the register within that part. -/
theorem snapshotFieldsOnTheWire : Obligations.SnapshotFieldsOnTheWire := by
  unfold Obligations.SnapshotFieldsOnTheWire
  intro r
  exact ⟨rfl,
    (wire_extract_afterShift r (by omega)).trans (concat_extract_QM1 _),
    (wire_extract_afterShift r (by omega)).trans (concat_extract_Q _),
    (wire_extract_afterShift r (by omega)).trans (concat_extract_A _),
    (wire_extract_afterArith r (by omega) (by omega)).trans (concat_extract_QM1 _),
    (wire_extract_afterArith r (by omega) (by omega)).trans (concat_extract_Q _),
    (wire_extract_afterArith r (by omega) (by omega)).trans (concat_extract_A _),
    wire_extract_action r,
    (wire_extract_before r rfl).trans (concat_extract_QM1 _),
    (wire_extract_before r rfl).trans (concat_extract_Q _),
    (wire_extract_before r (by omega)).trans (concat_extract_A _)⟩

end Sys2Proof.Machine
end

section
/-! What an answered command answers, and the kinds of response (R72, R76). -/

namespace Sys2Proof.Machine

/-- A command that has a phase of its own, when it answers, leaves the state it has there. -/
theorem eq_of_ite_refused_eq_next {p : Prop} [Decidable p] {t u : State} {r : Refusal}
    (h : (if p then .next u else .refused r : Host.Outcome State Fault Refusal) = .next t) : t = u := by
  split at h <;> cases h
  rfl

/-- Every command that completes answers (R76). -/
theorem Effect.exists_rsp {s t : State} {i : Instr} (h : Effect s i t) (command : i.isCommand = true) :
    ∃ r, t.rsp = some r := by
  cases h with
  | raised | began | completed | decided | shifted | cycled | floorSet | answered => exact ⟨_, rfl⟩
  | micro act notCommand => rw [command] at notCommand; cases notCommand

/-- Settles O50: a command that completes answers one of the three responses, and nothing stops the block for good. -/
theorem responseKindCodes : Obligations.ResponseKindCodes := by
  unfold Obligations.ResponseKindCodes
  intro i s command
  cases h : exec i s with
  | next t =>
    obtain ⟨r, hr⟩ := (Effect.of_exec h).exists_rsp command
    have kind : answerKind (.next t) = some r.kindCode := congrArg (Option.map Response.kindCode) hr
    refine ⟨?_, nofun, .inl ⟨t, rfl⟩⟩
    intro t' ht
    cases ht
    cases r with
    | ok => exact .inl ⟨hr, kind⟩
    | value v => exact .inr (.inl ⟨v, hr, kind⟩)
    | exception v w => exact .inr (.inr ⟨v, w, hr, kind⟩)
  | refused r => exact ⟨nofun, fun _ _ => rfl, .inr ⟨r, rfl⟩⟩
  | fault f => cases f

/-- Settles O49, instruction by instruction; `START` and `RUN` by `start_run_cases`. -/
theorem answersAreOfTheKindTheCommandMapSays : Obligations.AnswersAreOfTheKindTheCommandMapSays := by
  unfold Obligations.AnswersAreOfTheKindTheCommandMapSays
  intro i s t h
  cases i with
  | start m q b =>
    obtain ⟨r, hs, -⟩ | ⟨v, -, -, hs, -⟩ | ⟨n, act, ab, -, -, -, -, -, hs, -⟩ := start_run_cases m q b s
    · rw [hs] at h; cases h
    · rw [hs] at h; cases h
      exact .inr ⟨_, _, rfl⟩
    · rw [hs] at h; cases h
      exact .inl rfl
  | run m q b =>
    obtain ⟨r, -, hr⟩ | ⟨v, -, -, hs, hr⟩ | ⟨n, act, ab, -, -, -, -, -, -, hr⟩ := start_run_cases m q b s
    · rw [hr] at h; cases h
    · rw [hr, hs] at h; cases h
      exact .inr ⟨_, _, rfl⟩
    · rw [hr] at h; cases h
      exact .inl ⟨_, rfl⟩
  | decide | shift | cycle => rw [eq_of_ite_refused_eq_next h, State.answer_rsp]
  | result => rw [eq_of_ite_refused_eq_next h, State.answer_rsp]; exact ⟨_, rfl⟩
  | encode v w =>
    simp only [exec, execEncode] at h
    split at h <;> cases h
    · exact .inl ⟨_, rfl⟩
    · exact .inr ⟨_, _, rfl⟩
  | selwidth vs f =>
    simp only [exec, execSelwidth] at h
    split at h <;> cases h
    exact ⟨_, rfl⟩
  | setfloor f => cases h; rfl
  | decode | negate | minwidth | pdecode => cases h; exact ⟨_, rfl⟩
  | sub | add | nop00 | nop11 => cases h; rfl

end Sys2Proof.Machine
end

section
/-! The codec (spec/40_codec.md): what each unit answers as a number, what its commands answer, and the laws of the block's
modular arithmetic (R105). -/

namespace Sys2Proof.Machine

variable {n : Nat}

/-! ## The range of a width and the residue of a vector -/

/-- The range of `n` bits, with a width that is a natural number (R100). -/
theorem fits_natCast_iff {v : Int} : Fits v n ↔ 1 ≤ n ∧ -2 ^ (n - 1) ≤ v ∧ v ≤ 2 ^ (n - 1) - 1 := by
  have exponent : ((n : Int) - 1).toNat = n - 1 := by omega
  rw [Fits, exponent, Nat.one_le_cast]

/-- The modulus by the bound of the range, in the form `omega` needs. -/
theorem two_pow_eq_two_mul (pos : 1 ≤ n) : (2 : Int) ^ n = 2 * 2 ^ (n - 1) := by
  rw [mul_comm, pow_sub_one_mul (by omega)]

/-- A vector is the residue of its signed value (R104). -/
@[simp] theorem bv_decodeBits (b : BitVec n) : bv n (decodeBits b) = b := by
  rw [decodeBits_eq_toInt, bv, BitVec.ofInt_toInt]

/-- Every vector's signed value fits its width (R104). -/
theorem fits_decodeBits (pos : 1 ≤ n) (b : BitVec n) : Fits (decodeBits b) n := by
  rw [decodeBits_eq_toInt]
  exact fits_toInt pos b

/-- A value that fits is the signed value of its residue (R103). -/
theorem decodeBits_bv_of_fits {v : Int} (h : Fits v n) : decodeBits (bv n v) = v := by
  rw [decodeBits_eq_toInt, toInt_bv_of_fits h]

/-- The unsigned value of a vector by its signed one: the pattern of R100. -/
theorem toNat_eq_ite_decodeBits (b : BitVec n) :
    (b.toNat : Int) = if 0 ≤ decodeBits b then decodeBits b else 2 ^ n + decodeBits b := by
  have bound : (b.toNat : Int) < 2 ^ n := mod_cast b.isLt
  unfold decodeBits
  split
  · rw [if_neg (by omega)]; omega
  · rw [if_pos (by omega)]

/-- Residues have period `2^n` (R10). -/
theorem bv_add_two_pow (k : Int) : bv n (k + 2 ^ n) = bv n k := by
  apply BitVec.eq_of_toInt_eq
  simp only [bv, BitVec.toInt_ofInt]
  exact_mod_cast Int.add_bmod_right k (2 ^ n)

theorem bv_add (k l : Int) : bv n (k + l) = bv n k + bv n l := BitVec.ofInt_add k l

theorem bv_sub (k l : Int) : bv n (k - l) = bv n k - bv n l := by
  rw [Int.sub_eq_add_neg, bv_add, BitVec.sub_eq_add_neg, bv, bv, bv, BitVec.ofInt_neg]

/-! ## The units -/

/-- `ENCODE` gives a vector exactly for a value that fits: its residue, at the width asked for (R100). -/
theorem encodeValue_eq_some_iff {v w : Int} {b : Vec} :
    encodeValue v w = some b ↔ Fits v w ∧ (b.len : Int) = w ∧ b.bits = bv b.len v := by
  constructor
  · intro h
    unfold encodeValue at h
    split at h
    next fits =>
      cases h
      exact ⟨fits, Int.toNat_of_nonneg (by have := fits.one_le; omega), rfl⟩
    next => cases h
  · rintro ⟨fits, rfl, hb⟩
    rw [encodeValue, dif_pos fits, Option.some.injEq]
    obtain ⟨k, pos, bits⟩ := b
    exact congrArg (Vec.mk k pos) hb.symm

/-- `ENCODE` raises on exactly the values that do not fit (R106). -/
theorem encodeValue_eq_none {v w : Int} (unfit : ¬ Fits v w) : encodeValue v w = none := dif_neg unfit

/-- The most negative value belongs to one vector (R102). -/
theorem decodeBits_eq_neg_two_pow_iff (pos : 1 ≤ n) {b : BitVec n} :
    decodeBits b = -2 ^ (n - 1) ↔ b = BitVec.intMin n := by
  rw [decodeBits_eq_toInt, ← BitVec.toInt_intMin_of_pos pos, BitVec.toInt_inj]

/-! ## The commands -/

theorem exec_encode_of_some {v w : Int} {b : Vec} (h : encodeValue v w = some b) (s : State) :
    exec (.encode v w) s = .next (s.answer (.value (.bits b))) := by
  simp only [exec, execEncode, h]

theorem exec_encode_of_none {v w : Int} (h : encodeValue v w = none) (s : State) :
    exec (.encode v w) s = .next (s.answer (.exception v w)) := by
  simp only [exec, execEncode, h]

theorem exec_decode (b : Vec) (s : State) :
    exec (.decode b) s = .next (s.answer (.value (.int (decodeBits b.bits)))) := rfl

theorem exec_negate (b : Vec) (s : State) :
    exec (.negate b) s = .next (s.answer (.value (.bits { b with bits := -b.bits }))) := by
  rw [← negateBits_eq_neg]
  rfl

/-- An `ENCODE` that answers a vector found it (the other answer is the exception). -/
theorem encodeValue_of_exec_encode {v w : Int} {b : Vec} {s t : State} (h : exec (.encode v w) s = .next t)
    (answer : t.rsp = some (.value (.bits b))) : encodeValue v w = some b := by
  cases found : encodeValue v w with
  | some c =>
    rw [exec_encode_of_some found] at h
    cases h
    cases answer
    rfl
  | none =>
    rw [exec_encode_of_none found] at h
    cases h
    cases answer

/-- Settles O11: the vector is the residue of `v`, whose unsigned value follows from its signed one, which is `v`. -/
theorem encodeAnswersThePatternOrRaises : Obligations.EncodeAnswersThePatternOrRaises := by
  unfold Obligations.EncodeAnswersThePatternOrRaises
  intro v w s
  refine ⟨fun fits => ?_, fun unfit => exec_encode_of_none (encodeValue_eq_none unfit) s⟩
  lift w to Nat using by omega with k
  obtain ⟨pos, -⟩ := fits_natCast_iff.mp fits
  refine ⟨⟨k, pos, bv k v⟩, exec_encode_of_some (encodeValue_eq_some_iff.mpr ⟨fits, rfl, rfl⟩) s, rfl, ?_⟩
  rw [toNat_eq_ite_decodeBits, decodeBits_bv_of_fits fits, Int.toNat_natCast]

/-- Settles O12: the sign bit is the top one, and the value fits the width. -/
theorem decodeAnswersTheSignedValue : Obligations.DecodeAnswersTheSignedValue := by
  unfold Obligations.DecodeAnswersTheSignedValue
  intro b s
  obtain ⟨-, range⟩ := fits_natCast_iff.mp (fits_decodeBits b.pos b.bits)
  refine ⟨decodeBits b.bits, exec_decode b s, ?_, range⟩
  rw [decodeBits, BitVec.msb_eq_getLsbD_last]

/-- Settles O13: `NEGATE` is the library's negation, whose one exception is the most negative vector. -/
theorem negateAnswersTheWrappedNegation : Obligations.NegateAnswersTheWrappedNegation := by
  unfold Obligations.NegateAnswersTheWrappedNegation
  intro b s
  refine ⟨-b.bits, exec_negate b s, BitVec.toNat_neg b.bits, fun other => ?_, fun least => ?_, ?_⟩
  · rw [ne_eq, decodeBits_eq_neg_two_pow_iff b.pos] at other
    rw [decodeBits_eq_toInt, decodeBits_eq_toInt, BitVec.toInt_neg_of_ne_intMin other]
  · rw [(decodeBits_eq_neg_two_pow_iff b.pos).mp least, BitVec.neg_intMin]
  · rw [negateBits_eq_neg, neg_neg]

/-- Settles O14: residue and signed value are inverse to each other on the values that fit. -/
theorem codecRoundTrips : Obligations.CodecRoundTrips := by
  unfold Obligations.CodecRoundTrips
  constructor
  · intro v w b s t h answer
    obtain ⟨fits, rfl, bits⟩ := encodeValue_eq_some_iff.mp (encodeValue_of_exec_encode h answer)
    refine ⟨_, exec_decode b t, ?_⟩
    rw [State.answer_rsp, bits, decodeBits_bv_of_fits fits]
  · intro b v s t h answer
    cases h
    cases answer
    have found : encodeValue (decodeBits b.bits) b.len = some b :=
      encodeValue_eq_some_iff.mpr ⟨fits_decodeBits b.pos b.bits, rfl, (bv_decodeBits b.bits).symm⟩
    exact ⟨_, exec_encode_of_some found _, rfl⟩

/-! ## Addition and subtraction -/

/-- A sum is the residue of the sum of the signed values (R105). -/
theorem add_eq_bv (x y : BitVec n) : x + y = bv n (decodeBits x + decodeBits y) := by
  rw [bv_add, bv_decodeBits, bv_decodeBits]

/-- A difference is the residue of the difference of the signed values (R105). -/
theorem sub_eq_bv (x y : BitVec n) : x - y = bv n (decodeBits x - decodeBits y) := by
  rw [bv_sub, bv_decodeBits, bv_decodeBits]

/-- Settles O15: the sum is the residue of the exact sum `k`, so also of `k + 2^n` and `k - 2^n`; its signed value is whichever
of the three fits, and the ranges of the operands say that one does. -/
theorem additionWrapsModuloTwoToTheN : Obligations.AdditionWrapsModuloTwoToTheN := by
  unfold Obligations.AdditionWrapsModuloTwoToTheN
  intro n x y pos
  obtain ⟨-, hx⟩ := fits_natCast_iff.mp (fits_decodeBits pos x)
  obtain ⟨-, hy⟩ := fits_natCast_iff.mp (fits_decodeBits pos y)
  have modulus := two_pow_eq_two_mul pos
  rw [applyAction_add, applyAction_add, applyAction_subtract, negateBits_eq_neg]
  refine ⟨fun within => ?_, fun below => ?_, fun above => ?_, BitVec.sub_eq_add_neg x y, sub_eq_bv x y⟩
  · rw [add_eq_bv, decodeBits_bv_of_fits (fits_natCast_iff.mpr ⟨pos, within⟩)]
  · rw [add_eq_bv, ← bv_add_two_pow, decodeBits_bv_of_fits (fits_natCast_iff.mpr ⟨pos, by omega, by omega⟩)]
  · rw [add_eq_bv, ← sub_add_cancel (decodeBits x + decodeBits y) (2 ^ n), bv_add_two_pow,
      decodeBits_bv_of_fits (fits_natCast_iff.mpr ⟨pos, by omega, by omega⟩), sub_add_cancel]

end Sys2Proof.Machine
end

section
/-! The width selector (spec/41_width_selector.md): which widths `MINWIDTH` and `SELWIDTH` allot, how they compare with the widths
at which `ENCODE` does not raise, and what that says of automatic sizing. -/

namespace Sys2Proof.Machine

/-! ## The width allotted to one value -/

@[simp] theorem minWidth_zero : minWidth 0 = 1 := if_pos rfl

theorem minWidth_of_ne_zero {v : Int} (nonzero : v ≠ 0) : minWidth v = (bitlen v.natAbs : Int) + 1 := if_neg nonzero

@[simp] theorem minWidth_neg (v : Int) : minWidth (-v) = minWidth v := by
  simp only [minWidth, neg_eq_zero, Int.natAbs_neg]

/-- One bit of an allotted width is for the sign, the others hold the magnitude (R120). -/
theorem minWidth_le_succ_iff {v : Int} {l : Nat} : minWidth v ≤ l + 1 ↔ v.natAbs < 2 ^ l := by
  by_cases zero : v = 0
  · simp [zero]
  · rw [minWidth_of_ne_zero zero, ← Nat.log2_lt (Int.natAbs_ne_zero.mpr zero), bitlen]
    omega

/-- An allotted width is one where the value fits and is not the most negative value: the range of `MINWIDTH` is the range of
`ENCODE` made symmetric (R122, R123). -/
theorem minWidth_le_iff {v w : Int} : minWidth v ≤ w ↔ Fits v w ∧ v ≠ -2 ^ (w - 1).toNat := by
  by_cases pos : 1 ≤ w
  · obtain ⟨l, rfl⟩ : ∃ l : Nat, w = l + 1 := ⟨(w - 1).toNat, by omega⟩
    have magnitude : v.natAbs < 2 ^ l ↔ -2 ^ l < v ∧ v < 2 ^ l := by
      rw [← abs_lt, Int.abs_eq_natAbs]
      norm_cast
    rw [minWidth_le_succ_iff, magnitude, Fits, add_sub_cancel_right, Int.toNat_natCast]
    omega
  · exact iff_of_false (fun allotted => pos ((one_le_minWidth v).trans allotted)) fun fits => pos fits.1.one_le

/-- A negative power of two is allotted one bit more than it needs (R122, C2 of spec/90_conflicts.md). -/
theorem minWidth_neg_two_pow (k : Nat) : minWidth (-2 ^ k) = k + 2 := by
  have magnitude : ((2 : Int) ^ k).natAbs = 2 ^ k := Int.natAbs_pow 2 k
  rw [minWidth_neg, minWidth_of_ne_zero (by positivity), magnitude, bitlen, Nat.log2_two_pow]
  push_cast
  ring

/-- The widths at which a negative power of two encodes (R122). -/
theorem fits_neg_two_pow_iff {k : Nat} {w : Int} : Fits (-2 ^ k) w ↔ (k : Int) + 1 ≤ w := by
  have monotone : (2 : Int) ^ k ≤ 2 ^ (w - 1).toNat ↔ k ≤ (w - 1).toNat := pow_le_pow_iff_right₀ one_lt_two
  have positive : (0 : Int) < 2 ^ k := by positivity
  have bound : (0 : Int) < 2 ^ (w - 1).toNat := by positivity
  rw [Fits, neg_le_neg_iff, monotone]
  omega

theorem encodeValue_isSome_iff {v w : Int} : (encodeValue v w).isSome = true ↔ Fits v w := by
  unfold encodeValue
  split
  · next fits => exact iff_of_true rfl fits
  · next unfit => exact iff_of_false Bool.false_ne_true unfit

/-! ## The width allotted to several values -/

/-- `SELWIDTH` is the greatest of the floor and the allotted widths (R121). -/
theorem selWidth_eq_max? (vs : List Int) (f : Int) : selWidth vs f = (vs.map minWidth).max?.map (max f) := by
  cases vs with
  | nil => rfl
  | cons v rest => rw [List.map_cons, List.max?_cons', List.foldl_map]; rfl

/-- The chosen width meets the floor and every value, and no smaller one does (R121). -/
theorem exists_selWidth_eq_some {vs : List Int} (nonempty : vs ≠ []) (f : Int) :
    ∃ k, selWidth vs f = some k ∧ f ≤ k ∧ (∀ v ∈ vs, minWidth v ≤ k) ∧ (k = f ∨ ∃ v ∈ vs, k = minWidth v) := by
  rw [selWidth_eq_max?]
  cases greatest : (vs.map minWidth).max? with
  | none => exact absurd (List.map_eq_nil_iff.mp (List.max?_eq_none_iff.mp greatest)) nonempty
  | some g =>
    obtain ⟨attained, upper⟩ := List.max?_eq_some_iff.mp greatest
    obtain ⟨u, hu, rfl⟩ := List.mem_map.mp attained
    exact ⟨max f (minWidth u), rfl, le_max_left _ _,
      fun v hv => (upper _ (List.mem_map_of_mem hv)).trans (le_max_right _ _),
      (max_choice f (minWidth u)).imp_right fun h => ⟨u, hu, h⟩⟩

theorem minWidth_le_of_selWidth_pair {m q f n : Int} (h : selWidth [m, q] f = some n) :
    minWidth m ≤ n ∧ minWidth q ≤ n := by
  rw [selWidth_pair, Option.some.injEq] at h
  omega

/-- The automatic width fits both operands (R123, R131). -/
theorem fits_chooseWidth_none (m q f : Int) : Fits m (chooseWidth m q none f) ∧ Fits q (chooseWidth m q none f) :=
  have ⟨hm, hq⟩ := minWidth_le_of_selWidth_pair (selWidth_pair m q f)
  ⟨(minWidth_le_iff.mp hm).1, (minWidth_le_iff.mp hq).1⟩

/-! ## The commands -/

theorem exec_minwidth (v : Int) (s : State) : exec (.minwidth v) s = .next (s.answer (.value (.int (minWidth v)))) := rfl

theorem exec_selwidth_of_some {vs : List Int} {f k : Int} (h : selWidth vs f = some k) (s : State) :
    exec (.selwidth vs f) s = .next (s.answer (.value (.int k))) := by
  simp only [exec, execSelwidth, h]

/-- Settles O16: `bitlen` brackets the magnitude, which `v` and `-v` share. -/
theorem minwidthAnswersTheMagnitudeWidth : Obligations.MinwidthAnswersTheMagnitudeWidth := by
  unfold Obligations.MinwidthAnswersTheMagnitudeWidth
  intro v s
  refine ⟨minWidth v, exec_minwidth v s, ?_, fun zero => ?_, fun nonzero => ?_⟩
  · rw [exec_minwidth, minWidth_neg]
    rfl
  · rw [zero, minWidth_zero]
  · exact ⟨bitlen v.natAbs, Nat.succ_pos _, minWidth_of_ne_zero nonzero, bitlen_spec (Int.natAbs_ne_zero.mpr nonzero)⟩

/-- Settles O17: the width is `exists_selWidth_eq_some`, and at least 1 because every `MINWIDTH` is. -/
theorem selwidthAnswersTheMaximum : Obligations.SelwidthAnswersTheMaximum := by
  unfold Obligations.SelwidthAnswersTheMaximum
  intro vs f s
  refine ⟨fun nonempty => ?_, fun empty => ?_⟩
  · obtain ⟨k, chosen, floor, values, least⟩ := exists_selWidth_eq_some nonempty f
    obtain ⟨v, hv⟩ := List.exists_mem_of_ne_nil vs nonempty
    exact ⟨k, exec_selwidth_of_some chosen s, (one_le_minWidth v).trans (values v hv), floor, values, least⟩
  · rw [empty]
    rfl

/-- Settles O18: `MINWIDTH` differs from the least encoding width by the most negative value alone (`minWidth_le_iff`). -/
theorem minwidthIsSufficientAndWhenMinimal : Obligations.MinwidthIsSufficientAndWhenMinimal := by
  unfold Obligations.MinwidthIsSufficientAndWhenMinimal
  simp only [encodeValue_isSome_iff]
  intro v
  refine ⟨fun w allotted => (minWidth_le_iff.mp allotted).1,
    fun noPower w fits => minWidth_le_iff.mpr ⟨fits, noPower _⟩, fun k power => ?_⟩
  rw [power]
  exact ⟨minWidth_neg_two_pow k, fits_neg_two_pow_iff.mpr le_rfl, fun w => fits_neg_two_pow_iff.mp⟩

/-- Settles O19: the automatic width is an allotted width of both operands (`minWidth_le_iff`). -/
theorem automaticWidthAvoidsTheMostNegative : Obligations.AutomaticWidthAvoidsTheMostNegative := by
  unfold Obligations.AutomaticWidthAvoidsTheMostNegative
  simp only [encodeValue_isSome_iff]
  intro m q f n chosen
  obtain ⟨hm, hq⟩ := minWidth_le_of_selWidth_pair chosen
  obtain ⟨fitsM, otherM⟩ := minWidth_le_iff.mp hm
  obtain ⟨fitsQ, otherQ⟩ := minWidth_le_iff.mp hq
  refine ⟨fitsM, fitsQ, otherM, otherQ, ?_⟩
  rw [minWidth_neg_two_pow]
  have := fitsM.one_le
  omega

/-- Settles O24: of the three things a `START` or `RUN` can come to, the exception needs an operand that does not fit. -/
theorem automaticSizingNeverRaises : Obligations.AutomaticSizingNeverRaises := by
  unfold Obligations.AutomaticSizingNeverRaises
  intro m q s
  obtain ⟨r, start, run⟩ | ⟨v, unfit, operand, -, -⟩ | ⟨n, act, ab, -, -, -, -, -, start, run⟩ :=
    start_run_cases m q none s
  · rw [start, run]
    constructor <;> rintro t ⟨⟩
  · obtain ⟨fitsM, fitsQ⟩ := fits_chooseWidth_none m q s.FLOOR
    obtain rfl | rfl := operand
    · exact absurd fitsM unfit
    · exact absurd fitsQ unfit
  · rw [start, run]
    constructor <;> rintro t ⟨⟩
    · rfl
    · exact ⟨_, rfl⟩

end Sys2Proof.Machine
end

section
/-! `START` (spec/42_booth_stepper.md R130 to R134): which width it chooses, when it is refused, when it raises, and the run it
begins; and the same of `RUN`, which starts alike (R180). -/

namespace Sys2Proof.Machine

/-! ## What a `START` comes to -/

/-- `START` is refused exactly beyond the capacity, and then as `WidthUnsupported` (R133). -/
theorem State.start_eq_refused_iff {s : State} {m q : Int} {b : Option Int} {r : Refusal} :
    s.start m q b = .refused r ↔
      r = .widthUnsupported ∧ exceedsCapacity s.NMAX (chooseWidth m q b s.FLOOR) = true := by
  obtain ⟨beyond, h⟩ | ⟨within, -, h⟩ | ⟨within, -, -, h⟩ | ⟨within, -, -, h⟩ := s.start_cases m q b <;> rw [h]
  · simp [beyond, eq_comm]
  all_goals simp [within]

/-- Validation at a supported width raises on the multiplicand if it does not fit, else on the multiplier (R132, R203). -/
theorem State.start_eq_raised {m q n : Int} {b : Option Int} {s : State} (hc : chooseWidth m q b s.FLOOR = n)
    (capacity : exceedsCapacity s.NMAX n = false) (unfit : ¬ (Fits m n ∧ Fits q n)) :
    ∃ v, (¬ Fits m n → v = m) ∧ (Fits m n → v = q) ∧ s.start m q b = .raised v n (s.enterFault v n) := by
  subst hc
  obtain ⟨beyond, -⟩ | ⟨-, unfitM, h⟩ | ⟨-, fitsM, -, h⟩ | ⟨-, fitsM, fitsQ, -⟩ := s.start_cases m q b
  · rw [capacity] at beyond; cases beyond
  · exact ⟨m, fun _ => rfl, fun fitsM => absurd fitsM unfitM, h⟩
  · exact ⟨q, fun unfitM => absurd fitsM unfitM, fun _ => rfl, h⟩
  · exact absurd ⟨fitsM, fitsQ⟩ unfit

/-- The operand `bitSize` matters only through the width it makes `START` choose (R131). -/
theorem State.start_congr_width {m q : Int} {b b' : Option Int} {s : State}
    (h : chooseWidth m q b s.FLOOR = chooseWidth m q b' s.FLOOR) : s.start m q b = s.start m q b' := by
  simp only [State.start, h]

/-! ## The commands -/

theorem exec_start_eq_refused_iff {s : State} {m q : Int} {b : Option Int} {r : Refusal} :
    exec (.start m q b) s = .refused r ↔
      r = .widthUnsupported ∧ exceedsCapacity s.NMAX (chooseWidth m q b s.FLOOR) = true := by
  rw [← State.start_eq_refused_iff]
  simp only [exec, execStart]
  cases s.start m q b <;> simp

theorem exec_run_eq_refused_iff {s : State} {m q : Int} {b : Option Int} {r : Refusal} :
    exec (.run m q b) s = .refused r ↔
      r = .widthUnsupported ∧ exceedsCapacity s.NMAX (chooseWidth m q b s.FLOOR) = true := by
  rw [← State.start_eq_refused_iff]
  simp only [exec, execRun]
  cases s.start m q b <;> simp

/-- Nothing stops the block for good (R152): what is not refused completes. -/
theorem exists_next_of_not_refused {i : Instr} {s : State} (h : ∀ r, exec i s ≠ .refused r) :
    ∃ t, exec i s = .next t := by
  cases outcome : exec i s with
  | next t => exact ⟨t, rfl⟩
  | refused r => exact absurd outcome (h r)
  | fault f => cases f

/-- Within the capacity `START` and `RUN` both answer, whether or not the operands fit (R133). -/
theorem start_and_run_answer {m q : Int} {b : Option Int} {s : State}
    (capacity : exceedsCapacity s.NMAX (chooseWidth m q b s.FLOOR) = false) :
    (∃ t, exec (.start m q b) s = .next t) ∧ ∃ t, exec (.run m q b) s = .next t := by
  constructor <;> apply exists_next_of_not_refused <;> intro r refused
  · simp [exec_start_eq_refused_iff.mp refused] at capacity
  · simp [exec_run_eq_refused_iff.mp refused] at capacity

/-- A `START` whose width is chosen, supported and fits both operands answers ok to the run it began (R134). -/
theorem exec_start_eq_beginRun {m q : Int} {b : Option Int} {n : Nat} {s : State}
    (hc : chooseWidth m q b s.FLOOR = n) (capacity : exceedsCapacity s.NMAX n = false) (hm : Fits m n)
    (hq : Fits q n) : exec (.start m q b) s = .next ((s.beginRun m q n).answer .ok) := by
  simp only [exec, execStart, State.start_eq_began hc capacity hm hq]

/-- A command at two values of the floor register: refused alike, or completed in states that differ in the floor alone. -/
def FloorIndependent (i : Instr) (s : State) (f : Int) : Prop :=
  (∃ r, exec i s = .refused r ∧ exec i { s with FLOOR := f } = .refused r) ∨
  ∃ t, exec i s = .next t ∧ exec i { s with FLOOR := f } = .next { t with FLOOR := f }

/-- With an explicit width the floor plays no part in a `START` (R131, R241). -/
theorem exec_start_floorIndependent (m q n f : Int) (s : State) : FloorIndependent (.start m q (some n)) s f := by
  simp only [FloorIndependent, exec, execStart]
  obtain ⟨r, h, h'⟩ | ⟨v, w, t, h, h'⟩ | ⟨t, h, h'⟩ := s.start_withFloor m q n f <;> rw [h, h']
  · exact .inl ⟨r, rfl, rfl⟩
  · exact .inr ⟨_, rfl, rfl⟩
  · exact .inr ⟨_, rfl, rfl⟩

/-- With an explicit width the floor plays no part in a `RUN` either: its cycles do not read it. -/
theorem exec_run_floorIndependent (m q n f : Int) (s : State) : FloorIndependent (.run m q (some n)) s f := by
  simp only [FloorIndependent, exec, execRun]
  obtain ⟨r, h, h'⟩ | ⟨v, w, t, h, h'⟩ | ⟨t, h, h'⟩ := s.start_withFloor m q n f <;> rw [h, h']
  · exact .inl ⟨r, rfl, rfl⟩
  · exact .inr ⟨_, rfl, rfl⟩
  · refine .inr ⟨_, rfl, ?_⟩
    simp only [State.cycleSteps_withFloor]
    rfl

/-- Settles O21: the run is `State.beginRun`. -/
theorem startBeginsTheRun : Obligations.StartBeginsTheRun := by
  unfold Obligations.StartBeginsTheRun
  intro m q b n s hc capacity hm hq
  exact ⟨_, _, _, exec_start_eq_beginRun hc capacity hm hq⟩

/-- Settles O22: `START` and `RUN` take the exception that validation raises, and `ENCODE` only answers it. -/
theorem overflowEntersFault : Obligations.OverflowEntersFault := by
  unfold Obligations.OverflowEntersFault
  refine ⟨fun m q b n s hc capacity unfit => ?_, fun v w s unfit => exec_encode_of_none (encodeValue_eq_none unfit) s⟩
  obtain ⟨v, first, second, raised⟩ := State.start_eq_raised hc capacity unfit
  refine ⟨v, freeRun s.draws, s.draws + 1, first, second, ?_, ?_⟩
  · simp only [exec, execStart, raised]
    rfl
  · simp only [exec, execStart, execRun, raised]

/-- Settles O23: of `START` and `RUN` the capacity alone decides whether they are refused. -/
theorem widthBeyondNmaxIsRefused : Obligations.WidthBeyondNmaxIsRefused := by
  unfold Obligations.WidthBeyondNmaxIsRefused
  intro m q b s
  refine ⟨fun k pos hk beyond => ?_, fun k pos hk within => ?_, fun unbounded => ?_⟩
  · have exceeds : exceedsCapacity s.NMAX (chooseWidth m q b s.FLOOR) = true := by
      simpa [hk, exceedsCapacity] using beyond
    exact ⟨exec_start_eq_refused_iff.mpr ⟨rfl, exceeds⟩, exec_run_eq_refused_iff.mpr ⟨rfl, exceeds⟩⟩
  · exact start_and_run_answer (by simpa [hk, exceedsCapacity] using within)
  · exact start_and_run_answer (by simp [unbounded, exceedsCapacity])

/-- Settles O20: `START` reads `bitSize` and the floor only to choose the width, and the cycles of `RUN` read neither. -/
theorem startChoosesTheWidth : Obligations.StartChoosesTheWidth := by
  unfold Obligations.StartChoosesTheWidth
  intro m q n f s
  refine ⟨fun selected => ?_, fun i command => ?_⟩
  · have same : s.start m q none = s.start m q (some n) :=
      State.start_congr_width (Option.some.inj ((selWidth_pair m q s.FLOOR).symm.trans selected))
    simp only [exec, execStart, execRun, same, and_self]
  · have independent : FloorIndependent i s f := by
      obtain rfl | rfl := command
      · exact exec_start_floorIndependent m q n f s
      · exact exec_run_floorIndependent m q n f s
    obtain ⟨r, h, h'⟩ | ⟨t, h, h'⟩ := independent <;> rw [h, h']
    · exact ⟨nofun, fun _ => id⟩
    · exact ⟨by rintro _ ⟨⟩; rfl, nofun⟩

end Sys2Proof.Machine
end

section
/-! The sub-steps of a cycle (spec/42_booth_stepper.md R140 to R146): the action of each recode pair, the micro-operations, the shift of
the register triple, and the commands `DECIDE`, `SHIFT` and `CYCLE` in their phase and outside it. -/

namespace Sys2Proof.Machine

/-! ## The action of a recode pair -/

/-- The action depends on `Q[0]` and `QM1` alone (R140). -/
theorem Triple.recode_pair {n : Nat} (t : Triple n) {x : Bool} {c : Bit} (hx : t.Q.getLsbD 0 = x) (hc : t.QM1 = c) :
    recode t.pair = recode (BitVec.ofBool x ++ c) := by
  rw [Triple.pair, lowBit_append, hx, hc]

/-- With `QM1 = 0` the pair is `00` or `10` (R141). -/
theorem Triple.recode_pair_ne_add {n : Nat} (t : Triple n) (hc : t.QM1 = 0) : recode t.pair ≠ .add := by
  rw [t.recode_pair rfl hc]
  cases t.Q.getLsbD 0 <;> decide

/-! ## The micro-operations -/

theorem exec_sub (s : State) : exec .sub s = .next { s with run := { s.run with A := s.run.A - s.run.M } } := by
  rw [← applyAction_subtract]
  rfl

theorem exec_add (s : State) : exec .add s = .next { s with run := { s.run with A := s.run.A + s.run.M } } := by
  rw [← applyAction_add]
  rfl

/-- Adding the most negative vector flips the sign bit and nothing else: its lower bits are 0, so nothing is carried (R142). -/
theorem getLsbD_add_intMin {n : Nat} (pos : 1 ≤ n) (a : BitVec n) (j : Nat) :
    (a + BitVec.intMin n).getLsbD j = (a.getLsbD j ^^ decide (j = n - 1)) := by
  by_cases inside : j < n
  · have carried : BitVec.carry j a (BitVec.intMin n) false = false := by
      have lower : (BitVec.intMin n).toNat % 2 ^ j = 0 := by
        rw [BitVec.toNat_intMin_of_pos pos]
        exact Nat.mod_eq_zero_of_dvd (Nat.pow_dvd_pow 2 (by omega))
      rw [BitVec.carry, lower]
      exact decide_eq_false (not_le.mpr (Nat.mod_lt _ (Nat.two_pow_pos j)))
    have top : j + 1 = n ↔ j = n - 1 := by omega
    rw [BitVec.getLsbD_add inside, carried, BitVec.getLsbD_intMin, Bool.xor_false, decide_eq_decide.mpr top]
  · rw [BitVec.getLsbD_of_ge _ _ (by omega), BitVec.getLsbD_of_ge a _ (by omega)]
    rw [decide_eq_false (by omega), Bool.xor_false]

/-! ## The commands -/

section
variable {p : Prop} [Decidable p] {t u : State} {r r' : Refusal}

/-- A command that has a phase of its own completes only there (R211). -/
theorem ite_refused_eq_next_iff :
    (if p then .next u else .refused r : Host.Outcome State Fault Refusal) = .next t ↔ p ∧ u = t := by
  split <;> simp [*]

theorem ite_refused_eq_refused_iff :
    (if p then .next u else .refused r : Host.Outcome State Fault Refusal) = .refused r' ↔ r' = r ∧ ¬ p := by
  split <;> simp [*, eq_comm]

end

theorem exec_decide_eq_refused_iff {s : State} {r : Refusal} :
    exec .decide s = .refused r ↔ r = .wrongPhase ∧ s.PH ≠ .deciding := ite_refused_eq_refused_iff

theorem exec_shift_eq_refused_iff {s : State} {r : Refusal} :
    exec .shift s = .refused r ↔ r = .wrongPhase ∧ s.PH ≠ .shifting := ite_refused_eq_refused_iff

theorem exec_cycle_eq_refused_iff {s : State} {r : Refusal} :
    exec .cycle s = .refused r ↔ r = .wrongPhase ∧ s.PH ≠ .deciding := ite_refused_eq_refused_iff

theorem exec_result_eq_refused_iff {s : State} {r : Refusal} :
    exec .result s = .refused r ↔ r = .wrongPhase ∧ s.PH ≠ .done := ite_refused_eq_refused_iff

/-- The registers a `DECIDE` leaves, by the action it latches (R141). -/
theorem exec_decide_run {s : State} {act : Action} (deciding : s.PH = .deciding) (hact : recode s.run.triple.pair = act) :
    ∃ t, exec .decide s = .next t ∧
      t.run = { s.run with A := applyAction act s.run.A s.run.M, AB := s.run.A, ACT := act } := by
  subst hact
  exact ⟨_, execDecide_eq deciding, rfl⟩

/-- Settles O25: the action is `recode` of the pair, evaluated on each of the four. -/
theorem decideActsByTheRecodePair : Obligations.DecideActsByTheRecodePair := by
  unfold Obligations.DecideActsByTheRecodePair
  intro s
  refine ⟨fun deciding => ?_, fun other => exec_decide_eq_refused_iff.mpr ⟨rfl, other⟩⟩
  have acts {act : Action} (h : recode s.run.triple.pair = act) :
      recode s.run.triple.pair = act ∧
        applyAction (recode s.run.triple.pair) s.run.A s.run.M = applyAction act s.run.A s.run.M :=
    ⟨h, congrArg (applyAction · s.run.A s.run.M) h⟩
  exact ⟨recode s.run.triple.pair, applyAction (recode s.run.triple.pair) s.run.A s.run.M, execDecide_eq deciding,
    fun ⟨hq, hc⟩ => acts (s.run.triple.recode_pair hq hc), fun ⟨hq, hc⟩ => acts (s.run.triple.recode_pair hq hc),
    fun ⟨hq, hc⟩ => acts (s.run.triple.recode_pair hq hc), fun ⟨hq, hc⟩ => acts (s.run.triple.recode_pair hq hc),
    s.run.triple.recode_pair_ne_add⟩

/-- Settles O27: `SUB` subtracts vectors; the most negative `M` is its own negation and flips the sign bit. -/
theorem subSubtractsTheMultiplicand : Obligations.SubSubtractsTheMultiplicand := by
  unfold Obligations.SubSubtractsTheMultiplicand
  intro s
  refine ⟨s.run.A - s.run.M, exec_sub s, ?unsigned, sub_eq_bv _ _, ?mostNegative, ?zero, ?decide⟩
  case unsigned => rw [BitVec.toNat_sub, Nat.add_comm]
  case mostNegative =>
    rintro ⟨pos, least⟩
    have hM : s.run.M = BitVec.intMin s.run.N :=
      BitVec.eq_of_toNat_eq (by rw [least, BitVec.toNat_intMin_of_pos pos])
    have sub_eq_add : s.run.A - s.run.M = s.run.A + s.run.M := by
      rw [BitVec.sub_eq_add_neg, hM, BitVec.neg_intMin]
    refine ⟨by rw [exec_sub, exec_add, sub_eq_add], fun j => ?_⟩
    rw [sub_eq_add, hM, getLsbD_add_intMin pos]
  case zero =>
    intro zero
    have unchanged : s.run.A - s.run.M = s.run.A := by rw [zero]; exact BitVec.sub_zero _
    rw [exec_sub, unchanged]
  case decide =>
    rintro ⟨deciding, hq, hc⟩
    rw [← applyAction_subtract]
    exact exec_decide_run deciding (s.run.triple.recode_pair hq hc)

/-- Settles O28: `ADD` adds vectors, so residues. -/
theorem addAddsTheMultiplicand : Obligations.AddAddsTheMultiplicand := by
  unfold Obligations.AddAddsTheMultiplicand
  intro s
  refine ⟨s.run.A + s.run.M, exec_add s, BitVec.toNat_add _ _, fun m hM => ?signed, fun zero => ?zero, ?decide⟩
  case signed => rw [hM, bv_add, bv_decodeBits]
  case zero =>
    have unchanged : s.run.A + s.run.M = s.run.A := by rw [zero]; exact BitVec.add_zero _
    rw [exec_add, unchanged]
  case decide =>
    rintro ⟨deciding, hq, hc⟩
    rw [← applyAction_add]
    exact exec_decide_run deciding (s.run.triple.recode_pair hq hc)

/-- Settles O29: the action of both micro-operations is `NoOp`, which returns the accumulator. -/
theorem nopChangesNothing : Obligations.NopChangesNothing := by
  unfold Obligations.NopChangesNothing
  exact fun s => ⟨rfl, rfl⟩

/-! ## The shift -/

section
variable {n : Nat} (t : Triple n)

/-- `A' = A[n-1] ‖ A[n-1:1]` (R145). -/
theorem shifted_A_getLsbD {j : Nat} (hj : j < n) :
    t.shifted.A.getLsbD j = if j = n - 1 then t.A.getLsbD j else t.A.getLsbD (j + 1) := by
  rw [shifted_A, BitVec.getLsbD_sshiftRight, decide_eq_false (by omega), Bool.not_false, Bool.true_and]
  by_cases top : j = n - 1
  · rw [if_neg (by omega), if_pos top, BitVec.msb_eq_getLsbD_last, top]
  · rw [if_pos (by omega), if_neg top, Nat.add_comm]

/-- `Q' = A[0] ‖ Q[n-1:1]` (R145). -/
theorem shifted_Q_getLsbD {j : Nat} (hj : j < n) :
    t.shifted.Q.getLsbD j = if j = n - 1 then t.A.getLsbD 0 else t.Q.getLsbD (j + 1) := by
  rw [shifted_Q, BitVec.getLsbD_extractLsb', BitVec.getLsbD_append, decide_eq_true hj, Bool.true_and]
  by_cases top : j = n - 1
  · rw [if_neg (by omega), if_pos top, show 1 + j - n = 0 by omega]
  · rw [if_pos (by omega), if_neg top, Nat.add_comm]

/-- The product of the register pair is the partial product that takes in all `n` bits of `Q` (R67). -/
theorem productOf_eq_partialProduct : productOf t.A t.Q = partialProduct t n := by
  simp [productOf_eq, partialProduct]

/-- A shift halves the product, rounded down (R145): the bit it drops is `Q[0]`. -/
theorem productOf_shifted (pos : 1 ≤ n) : productOf t.shifted.A t.shifted.Q = productOf t.A t.Q / 2 := by
  obtain ⟨k, rfl⟩ : ∃ k, n = k + 1 := ⟨n - 1, by omega⟩
  rw [productOf_eq_partialProduct, partialProduct_shifted t k (Nat.lt_succ_self k), productOf_eq, partialProduct]
  have half : t.A.toInt * 2 ^ (k + 1) + t.Q.toNat = t.Q.toNat + t.A.toInt * 2 ^ k * 2 := by ring
  rw [half, Int.add_mul_ediv_right _ _ two_ne_zero, Nat.add_sub_cancel_left, pow_one, Int.natCast_ediv, Nat.cast_two,
    Int.add_comm]

end

/-- Settles O30: the shift of the triple bit by bit, and read as integers by the laws of `Triple.shifted`. -/
theorem shiftShiftsTheTripleAndEmits : Obligations.ShiftShiftsTheTripleAndEmits := by
  unfold Obligations.ShiftShiftsTheTripleAndEmits
  intro s
  refine ⟨fun shifting pos => ?_, fun other => exec_shift_eq_refused_iff.mpr ⟨rfl, other⟩⟩
  refine ⟨s.run.triple.shifted.A, s.run.triple.shifted.Q, s.run.triple.shifted.QM1, s.run.snapshot,
    execShift_eq shifting, rfl, fun _ => shifted_A_getLsbD s.run.triple, fun _ => shifted_Q_getLsbD s.run.triple,
    ?history, ?accumulator, shifted_Q_toNat pos s.run.triple, productOf_shifted s.run.triple pos⟩
  case history => rw [shifted_QM1 pos]; simp [Run.triple]
  case accumulator =>
    rw [decodeBits_eq_toInt, decodeBits_eq_toInt]
    exact shifted_A_toInt s.run.triple

/-- Settles O31: `State.cycleStep` is the two sub-steps, and the answer of the first is overwritten by that of the second. -/
theorem cycleIsDecideThenShift : Obligations.CycleIsDecideThenShift := by
  unfold Obligations.CycleIsDecideThenShift
  intro s
  refine ⟨fun deciding => ?_, fun other => exec_cycle_eq_refused_iff.mpr ⟨rfl, other⟩⟩
  exact ⟨_, _, execDecide_eq deciding, execShift_eq rfl, execCycle_eq deciding⟩

end Sys2Proof.Machine
end

section
/-! Control: where each instruction takes `(PH, I)` (R150), and which commands are refused (R211). -/

namespace Sys2Proof.Machine

/-! ## Transitions of `(PH, I)` -/

/-- The advance at the end of a cycle (R145, R150). -/
theorem State.shiftStep_control (s : State) :
    (s.run.I = s.run.N ∧ s.shiftStep.PH = .done ∧ s.shiftStep.run.I = s.run.I) ∨
    (s.run.I ≠ s.run.N ∧ s.shiftStep.PH = .deciding ∧ s.shiftStep.run.I = s.run.I + 1) := by
  by_cases last : s.run.I = s.run.N
  · exact .inl ⟨last, if_pos last, if_pos last⟩
  · exact .inr ⟨last, if_neg last, if_neg last⟩

/-- Only `START`, `RUN` and the sub-steps move `(PH, I)` (R150). -/
theorem Effect.control_eq {s t : State} {i : Instr} (h : Effect s i t)
    (other : ∀ m q b, i ≠ .start m q b ∧ i ≠ .run m q b ∧ i ≠ .decide ∧ i ≠ .shift ∧ i ≠ .cycle) :
    t.PH = s.PH ∧ t.run.I = s.run.I := by
  cases h with
  | floorSet | answered | micro => exact ⟨rfl, rfl⟩
  | raised v w hi => exact (hi.elim (other _ _ _).1 (other _ _ _).2.1).elim
  | began m q b => exact ((other m q b).1 rfl).elim
  | completed m q b => exact ((other m q b).2.1 rfl).elim
  | decided => exact ((other 0 0 none).2.2.1 rfl).elim
  | shifted => exact ((other 0 0 none).2.2.2.1 rfl).elim
  | cycled => exact ((other 0 0 none).2.2.2.2 rfl).elim

/-- Settles O32, instruction by instruction; `CYCLE` advances as the `SHIFT` in it does. -/
theorem onlyTheseControlTransfers : Obligations.OnlyTheseControlTransfers := by
  unfold Obligations.OnlyTheseControlTransfers
  intro i s t h
  cases i with
  | start m q b =>
    obtain ⟨r, hs, -⟩ | ⟨v, -, -, hs, -⟩ | ⟨n, act, ab, -, -, -, -, -, hs, -⟩ := start_run_cases m q b s <;>
      rw [hs] at h <;> cases h
    · exact .inr rfl
    · exact .inl ⟨rfl, rfl⟩
  | run m q b =>
    obtain ⟨r, -, hr⟩ | ⟨v, -, -, hs, hr⟩ | ⟨n, act, ab, -, -, -, -, -, -, hr⟩ := start_run_cases m q b s
    · rw [hr] at h; cases h
    · rw [hr, hs] at h; cases h
      exact .inr rfl
    · rw [hr] at h; cases h
      exact .inl ⟨if_pos rfl, if_pos rfl⟩
  | decide =>
    obtain ⟨deciding, rfl⟩ := ite_refused_eq_next_iff.mp h
    exact ⟨deciding, rfl, rfl⟩
  | shift =>
    obtain ⟨shifting, rfl⟩ := ite_refused_eq_next_iff.mp h
    exact ⟨shifting, s.shiftStep_control⟩
  | cycle =>
    obtain ⟨deciding, rfl⟩ := ite_refused_eq_next_iff.mp h
    exact ⟨deciding, s.decideStep.shiftStep_control⟩
  | result | setfloor | encode | decode | negate | minwidth | selwidth | pdecode | sub | add | nop00 | nop11 =>
    exact (Effect.of_exec h).control_eq fun _ _ _ => ⟨nofun, nofun, nofun, nofun, nofun⟩

/-! ## Refusals -/

theorem exec_selwidth_eq_refused_iff {s : State} {vs : List Int} {f : Int} {r : Refusal} :
    exec (.selwidth vs f) s = .refused r ↔ r = .emptySequence ∧ vs = [] := by
  cases vs with
  | nil => simp [exec, execSelwidth, selWidth, eq_comm]
  | cons v rest => simp [exec, execSelwidth, selWidth]

/-- `ENCODE` is never refused: a value that does not fit is answered with the exception (R184). -/
theorem exec_encode_ne_refused (v w : Int) (s : State) (r : Refusal) : exec (.encode v w) s ≠ .refused r := by
  cases found : encodeValue v w with
  | some b => rw [exec_encode_of_some found]; nofun
  | none => rw [exec_encode_of_none found]; nofun

/-- Settles O48: no fault exists, and each command is refused under its own condition. -/
theorem refusalsAreExactlyThese : Obligations.RefusalsAreExactlyThese := by
  unfold Obligations.RefusalsAreExactlyThese
  intro i s command
  refine ⟨nofun, fun r => ?_⟩
  cases i with
  | start m q b => simp [exec_start_eq_refused_iff]
  | run m q b => simp [exec_run_eq_refused_iff]
  | decide => simp [exec_decide_eq_refused_iff]
  | shift => simp [exec_shift_eq_refused_iff]
  | cycle => simp [exec_cycle_eq_refused_iff]
  | result => simp [exec_result_eq_refused_iff]
  | selwidth vs f => simp [exec_selwidth_eq_refused_iff]
  | encode v w => simp [exec_encode_ne_refused]
  | setfloor f => simp [exec, execSetfloor]
  | decode b => simp [exec_decode]
  | negate b => simp [exec_negate]
  | minwidth v => simp [exec_minwidth]
  | pdecode ab => simp [exec, execPdecode]
  | sub | add | nop00 | nop11 => cases command

end Sys2Proof.Machine
end

section
/-! Whole runs: the state after `START` and some `CYCLE`s, what the registers hold there (R153), and the actions of a run (R154). -/

namespace Sys2Proof.Machine

/-! ## Sequences of instructions -/

theorem execAll_append_of_next {is js : List Instr} {s t : State} (h : execAll is s = .next t) :
    execAll (is ++ js) s = execAll js t := by
  induction is generalizing s with
  | nil => cases h; rfl
  | cons i rest ih =>
    rw [List.cons_append]
    simp only [execAll] at h ⊢
    split at h
    next u hu => exact ih h
    all_goals cases h

theorem execAll_singleton (i : Instr) (s : State) : execAll [i] s = exec i s := by
  simp only [execAll]
  cases exec i s <;> rfl

/-- A begun run accepts as many `CYCLE`s as its width, and each is `State.cycleStep` (R146, R150). -/
theorem execAll_cycles_beginRun (s : State) (m q : Int) {n k : Nat} (pos : 1 ≤ n) (hk : k ≤ n) :
    execAll (List.replicate k .cycle) ((s.beginRun m q n).answer .ok) =
      .next (((s.beginRun m q n).cycleSteps k).answer .ok) := by
  induction k with
  | zero => rfl
  | succ k ih =>
    obtain ⟨act, ab, cycles⟩ := s.cycleSteps_beginRun m q n k pos (by omega)
    have deciding : ((s.beginRun m q n).cycleSteps k).PH = .deciding := by
      rw [cycles]
      exact if_neg (by omega)
    rw [List.replicate_succ', execAll_append_of_next (ih (by omega)), execAll_singleton, State.cycleSteps_succ_last]
    exact execCycle_eq deciding

/-- `START` with an explicit width that fits, then `k` cycles: the closed form `State.afterCycles` (R151). -/
theorem execAll_start_cycles {m q : Int} {n k : Nat} {s : State} (hm : Fits m n) (hq : Fits q n)
    (capacity : exceedsCapacity s.NMAX n = false) (hk : k ≤ n) : ∃ act ab,
      execAll (.start m q (some n) :: List.replicate k .cycle) s = .next ((s.afterCycles m q n k act ab).answer .ok) := by
  have pos : 1 ≤ n := Int.ofNat_le.mp hm.one_le
  obtain ⟨act, ab, cycles⟩ := s.cycleSteps_beginRun m q n k pos hk
  refine ⟨act, ab, ?_⟩
  rw [← cycles, ← execAll_cycles_beginRun s m q pos hk]
  simp only [execAll, exec_start_eq_beginRun (chooseWidth_some m q n s.FLOOR) capacity hm hq]

/-! ## What a run has computed after some cycles -/

section
variable {n : Nat}

/-- With a multiplicand that is not the most negative no `Add` or `Subtract` of a run wraps (R153 item 3). -/
theorem boothTrace_afterArith_toInt {b M : BitVec n} {m : Int} (hM : M.toInt = m) (other : m ≠ -2 ^ (n - 1)) {k : Nat}
    (hk : k ≤ n) {r : Snapshot} (hr : r ∈ boothTrace M (initialRegs b) k) :
    r.afterArith.A.toInt = r.before.A.toInt + (match r.action with | .subtract => -m | .add => m | .noOp => 0) := by
  obtain ⟨j, hj, rfl⟩ := List.mem_map.mp hr
  have inside : j < n := (List.mem_range.mp hj).trans_le hk
  exact (partialProduct_cycle b M _ j inside m hM other (boothRegs_consumed b M j inside.le)
    (boothRegs_partialProduct b M m hM other j inside.le)).1

/-- Step `j + 1` takes the action of the multiplier's bits `j` and `j - 1` (R140, R154). -/
theorem boothRecord_action (b M : BitVec n) {j : Nat} (hj : j < n) :
    (boothRecord M (initialRegs b) j).action =
      match b.getLsbD j, bitBelow b j with
      | true, false => .subtract
      | false, true => .add
      | false, false => .noOp
      | true, true => .noOp :=
  Consumed.recode b _ j hj (boothRegs_consumed b M j hj.le)

/-- A step does something exactly where a bit differs from the one below it (R154). -/
theorem boothRecord_action_bne_noOp (b M : BitVec n) {j : Nat} (hj : j < n) :
    ((boothRecord M (initialRegs b) j).action != .noOp) = (b.getLsbD j != bitBelow b j) := by
  rw [boothRecord_action b M hj]
  cases b.getLsbD j <;> cases bitBelow b j <;> rfl

theorem boothTrace_getElem?_eq_some {M : BitVec n} {t : Triple n} {k j : Nat} {r : Snapshot}
    (h : (boothTrace M t k)[j]? = some r) : j < k ∧ r = boothRecord M t j := by
  rw [boothTrace, List.getElem?_map, Option.map_eq_some_iff] at h
  obtain ⟨i, hi, rfl⟩ := h
  obtain ⟨hj, hi⟩ := List.getElem?_eq_some_iff.mp hi
  rw [List.length_range] at hj
  rw [List.getElem_range] at hi
  exact ⟨hj, by rw [hi]⟩

end

/-- Settles O34: the state is `State.afterCycles`, whose registers are Booth's (`boothRegs_consumed`, `boothRegs_partialProduct` and its
counterpart for the most negative multiplicand). -/
theorem registersAfterSomeCycles : Obligations.RegistersAfterSomeCycles := by
  unfold Obligations.RegistersAfterSomeCycles
  intro m q n k s hm hq capacity hk
  obtain ⟨act, ab, run⟩ := execAll_start_cycles hm hq capacity hk
  have hM : (bv n m).toInt = m := toInt_bv_of_fits hm
  have consumed := boothRegs_consumed (bv n q) (bv n m) k hk
  refine ⟨_, _, ab, _, act, _, run, rfl, rfl, consumed.low, consumed.hist, fun other => ⟨?_, ?_, fun r hr => ?_⟩,
    fun least => ?_⟩
  · rw [decodeBits_append_upper _ k hk, decodeBits_eq_toInt]
    exact boothRegs_partialProduct _ _ m hM other k hk
  · rw [decodeBits_eq_toInt, decodeBits_eq_toInt, accumulator_eq_div _ k hk,
      boothRegs_partialProduct _ _ m hM other k hk]
    rfl
  · rw [decodeBits_eq_toInt, decodeBits_eq_toInt]
    exact boothTrace_afterArith_toInt hM other hk hr
  · rw [decodeBits_append_upper _ k hk, decodeBits_eq_toInt]
    exact boothRegs_partialProduct_of_mostNegative _ _ m hM least k hk

/-- Settles O35: the trace of a run is `boothTrace`, record by record `boothRecord`. -/
theorem actionsFollowTheBitChanges : Obligations.ActionsFollowTheBitChanges := by
  unfold Obligations.ActionsFollowTheBitChanges
  intro m q n s hm hq capacity
  obtain ⟨act, ab, run⟩ := exec_run_eq_afterCycles (chooseWidth_some m q n s.FLOOR) capacity hm hq
  refine ⟨_, run, fun j r hr => ?_, ?_⟩
  · obtain ⟨hj, rfl⟩ := boothTrace_getElem?_eq_some hr
    exact boothRecord_action _ _ hj
  · change ((boothTrace (bv n m) (initialRegs (bv n q)) n).filter _).length = _
    rw [boothTrace, List.filter_map, List.length_map]
    refine congrArg List.length (List.filter_congr fun j hj => ?_)
    exact boothRecord_action_bne_noOp _ _ (List.mem_range.mp hj)

end Sys2Proof.Machine
end

section
/-! The product (spec/43_result_decoder.md): what `PDECODE` and `RESULT` answer, what a whole run computes (R172 to R174), and the runs
with a zero operand (R175). -/

namespace Sys2Proof.Machine

/-! ## A register pair as one number -/

section
variable {n : Nat}

/-- The pair is negative exactly when its high half is (R170). -/
theorem productOf_neg_iff (pos : 1 ≤ n) {a b : BitVec n} : productOf a b < 0 ↔ a.getLsbD (n - 1) = true := by
  rw [productOf, decodeBits_eq_toInt, ← decide_eq_true_iff (p := (a ++ b).toInt < 0), ← BitVec.msb_eq_toInt,
    BitVec.msb_append, if_neg (by omega), BitVec.msb_eq_getLsbD_last]

/-- The pair ranges over the values of `2n` bits (R170). -/
theorem productOf_range (pos : 1 ≤ n) (a b : BitVec n) :
    -2 ^ (2 * n - 1) ≤ productOf a b ∧ productOf a b ≤ 2 ^ (2 * n - 1) - 1 := by
  rw [two_mul]
  exact (fits_natCast_iff.mp (fits_decodeBits (by omega) (a ++ b))).2

/-- `s(a) * 2^n + u(b)` (R170). -/
theorem productOf_eq_decodeBits (a b : BitVec n) : productOf a b = decodeBits a * 2 ^ n + b.toNat := by
  rw [productOf_eq, decodeBits_eq_toInt]

end

/-- Settles O36: the value of the pair is that of a vector of `2n` bits whose sign bit is the top bit of the high half. -/
theorem pdecodeAnswersThePairsValue : Obligations.PdecodeAnswersThePairsValue := by
  unfold Obligations.PdecodeAnswersThePairsValue
  intro p s
  exact ⟨productOf p.high p.low, rfl, productOf_eq_decodeBits p.high p.low, productOf_neg_iff p.pos,
    productOf_range p.pos p.high p.low⟩

/-- Settles O37: `RESULT` only answers, so the state it leaves is in `Done` with the same registers. -/
theorem resultAnswersTheProduct : Obligations.ResultAnswersTheProduct := by
  unfold Obligations.ResultAnswersTheProduct
  intro s
  refine ⟨fun done => ?_, fun other => exec_result_eq_refused_iff.mpr ⟨rfl, other⟩⟩
  have again : (s.answer (.value (.int s.product))).PH = .done := done
  exact ⟨s.product, _, rfl, execResult_eq done, execResult_eq again, productOf_eq_decodeBits s.run.A s.run.Q⟩

/-! ## What a whole run computes -/

/-- `RUN` is its expansion at a width that is supported and fits both operands: `START`, `n` cycles and `RESULT` (R79, R180). -/
theorem execAll_expansion_eq_exec_run {m q : Int} {b : Option Int} {n : Nat} {s : State}
    (hc : chooseWidth m q b s.FLOOR = n) (capacity : exceedsCapacity s.NMAX n = false) (hm : Fits m n)
    (hq : Fits q n) :
    execAll (.start m q b :: (List.replicate n .cycle ++ [.result])) s = exec (.run m q b) s := by
  have pos : 1 ≤ n := Int.ofNat_le.mp hm.one_le
  have done : ((s.beginRun m q n).cycleSteps n).PH = .done := by
    obtain ⟨act, ab, cycles⟩ := s.cycleSteps_beginRun m q n n pos le_rfl
    rw [cycles]
    exact if_pos rfl
  have run : exec (.run m q b) s = .next (((s.beginRun m q n).cycleSteps n).answer
      (.value (.int ((s.beginRun m q n).cycleSteps n).product))) := by
    simp only [exec, execRun, State.start_eq_began hc capacity hm hq, State.beginRun_run]
  simp only [execAll, exec_start_eq_beginRun hc capacity hm hq]
  rw [execAll_append_of_next (execAll_cycles_beginRun s m q pos le_rfl), execAll_singleton, run]
  exact execResult_eq done

section
variable {n : Nat}

/-- After `n` cycles every bit of the multiplier is consumed (R153). -/
theorem consumedValue_bv_of_fits {q : Int} (hq : Fits q n) : consumedValue (bv n q) n = q := by
  rw [consumedValue, BitVec.extractLsb'_eq_self, toInt_bv_of_fits hq]

/-- The product after `n` cycles is the partial product of R153 at `k = n`. -/
theorem State.afterCycles_product (s : State) (m q : Int) (act : Action) (ab : BitVec n) :
    (s.afterCycles m q n n act ab).product = partialProduct (boothRegs (bv n m) (initialRegs (bv n q)) n) n :=
  productOf_eq_partialProduct _

/-- A run whose multiplicand is not the most negative value computes `m * q` (R172). -/
theorem State.afterCycles_product_eq_mul {m q : Int} (hm : Fits m n) (hq : Fits q n) (other : m ≠ -2 ^ (n - 1))
    (s : State) (act : Action) (ab : BitVec n) : (s.afterCycles m q n n act ab).product = m * q := by
  rw [State.afterCycles_product, boothRegs_partialProduct _ _ m (toInt_bv_of_fits hm) other n le_rfl,
    consumedValue_bv_of_fits hq]

/-- A run whose multiplicand is the most negative value computes `-(m * q)` (R173). -/
theorem State.afterCycles_product_eq_neg_mul {m q : Int} (hm : Fits m n) (hq : Fits q n) (least : m = -2 ^ (n - 1))
    (s : State) (act : Action) (ab : BitVec n) : (s.afterCycles m q n n act ab).product = -(m * q) := by
  rw [State.afterCycles_product, boothRegs_partialProduct_of_mostNegative _ _ m (toInt_bv_of_fits hm) least n le_rfl,
    consumedValue_bv_of_fits hq]

/-- The most negative value of a width fits it (R100). -/
theorem fits_mostNegative (pos : 1 ≤ n) : Fits (-2 ^ (n - 1)) n := fits_neg_two_pow_iff.mpr (by omega)

/-- `RUN` at a chosen, supported width answers `m * q` unless the multiplicand is the most negative value (R172). -/
theorem exec_run_eq_mul {m q : Int} {b : Option Int} {s : State} (hc : chooseWidth m q b s.FLOOR = n)
    (capacity : exceedsCapacity s.NMAX n = false) (hm : Fits m n) (hq : Fits q n) (other : m ≠ -2 ^ (n - 1)) :
    ∃ act ab, exec (.run m q b) s = .next ((s.afterCycles m q n n act ab).answer (.value (.int (m * q)))) := by
  obtain ⟨act, ab, run⟩ := exec_run_eq_afterCycles hc capacity hm hq
  rw [State.afterCycles_product_eq_mul hm hq other] at run
  exact ⟨act, ab, run⟩

end

/-- Settles O38: the run computes `m * q`, and the sequence ends in the state that `RUN` leaves. -/
theorem productIsExact : Obligations.ProductIsExact := by
  unfold Obligations.ProductIsExact
  intro m q n s hm hq capacity other
  have hc := chooseWidth_some m q n s.FLOOR
  obtain ⟨act, ab, run⟩ := exec_run_eq_mul hc capacity hm hq other
  exact ⟨_, (execAll_expansion_eq_exec_run hc capacity hm hq).trans run, run, rfl⟩

/-- Settles O39: the most negative value fits its width, so the run is accepted, and it computes `-(m * q)`. -/
theorem mostNegativeMultiplicandFlipsTheSign : Obligations.MostNegativeMultiplicandFlipsTheSign := by
  unfold Obligations.MostNegativeMultiplicandFlipsTheSign
  intro q n s pos hq capacity
  have hm := fits_mostNegative pos
  have hc := chooseWidth_some (-2 ^ (n - 1)) q n s.FLOOR
  have flipped : (2 : Int) ^ (n - 1) * q = -(-2 ^ (n - 1) * q) := by rw [neg_mul, neg_neg]
  obtain ⟨act, ab, run⟩ := exec_run_eq_afterCycles hc capacity hm hq
  rw [State.afterCycles_product_eq_neg_mul hm hq rfl, ← flipped] at run
  exact ⟨_, (execAll_expansion_eq_exec_run hc capacity hm hq).trans run, run, if_pos rfl, rfl, rfl, flipped⟩

/-- Settles O40: the automatic width is allotted to both operands, so both fit and neither is the most negative value
(`minWidth_le_iff`). -/
theorem automaticSizingIsExact : Obligations.AutomaticSizingIsExact := by
  unfold Obligations.AutomaticSizingIsExact
  intro a b s capacity
  obtain ⟨n, hn⟩ : ∃ n : Nat, chooseWidth a b none s.FLOOR = n :=
    Int.eq_ofNat_of_zero_le (by have := (fits_chooseWidth_none a b s.FLOOR).1.one_le; omega)
  have selected : selWidth [a, b] s.FLOOR = some (n : Int) := (selWidth_pair a b s.FLOOR).trans (congrArg some hn)
  obtain ⟨allottedA, allottedB⟩ := minWidth_le_of_selWidth_pair selected
  obtain ⟨hm, other⟩ := minWidth_le_iff.mp allottedA
  obtain ⟨hq, -⟩ := minWidth_le_iff.mp allottedB
  have exponent : ((n : Int) - 1).toNat = n - 1 := by omega
  rw [exponent] at other
  obtain ⟨act, ab, run⟩ := exec_run_eq_mul hn (capacity n selected) hm hq other
  exact ⟨_, run, rfl⟩

/-! ## Zero operands -/

section
variable {n : Nat}

@[simp] theorem bv_zero : bv n 0 = 0 := BitVec.ofInt_ofNat n 0

/-- With a zero multiplicand no action changes the accumulator (R142 to R144). -/
theorem applyAction_zero (act : Action) (a : BitVec n) : applyAction act a 0 = a := by
  cases act with
  | noOp => rfl
  | add => rw [applyAction_add]; exact BitVec.add_zero a
  | subtract => rw [applyAction_subtract]; exact BitVec.sub_zero a

/-- With a zero multiplicand the accumulator stays zero throughout a run (R175). -/
theorem boothRegs_zero_A (b : BitVec n) (k : Nat) : (boothRegs 0 (initialRegs b) k).A = 0 := by
  induction k with
  | zero => rfl
  | succ k ih => rw [boothRegs, shifted_A, decided_A, applyAction_zero, ih]; exact BitVec.zero_sshiftRight

/-- With all registers zero the recode pair is `00` (R140). -/
theorem recode_pair_initialRegs_zero : recode (initialRegs (0 : BitVec n)).pair = .noOp := by
  rw [(initialRegs (0 : BitVec n)).recode_pair (x := false) (c := 0) BitVec.getLsbD_zero rfl]
  rfl

theorem decided_initialRegs_zero (m : BitVec n) : (initialRegs 0).decided m = initialRegs 0 := by
  rw [Triple.decided, recode_pair_initialRegs_zero, applyAction_noOp]

theorem shifted_initialRegs_zero : (initialRegs (0 : BitVec n)).shifted = initialRegs 0 := by
  simp [Triple.shifted, initialRegs]

/-- With a zero multiplier no cycle changes a register (R175). -/
theorem boothRegs_initialRegs_zero (m : BitVec n) (k : Nat) : boothRegs m (initialRegs 0) k = initialRegs 0 := by
  induction k with
  | zero => rfl
  | succ k ih => rw [boothRegs, ih, decided_initialRegs_zero, shifted_initialRegs_zero]

/-- A record of a run with a zero multiplicand (R175). -/
theorem boothRecord_of_zero_multiplicand (b : BitVec n) (k : Nat) :
    (boothRecord 0 (initialRegs b) k).before.A = 0 ∧ (boothRecord 0 (initialRegs b) k).afterArith.A = 0 ∧
      (boothRecord 0 (initialRegs b) k).afterShift.A = 0 :=
  ⟨boothRegs_zero_A b k, (applyAction_zero _ _).trans (boothRegs_zero_A b k), boothRegs_zero_A b (k + 1)⟩

/-- A record of a run with a zero multiplier (R175). -/
theorem boothRecord_of_zero_multiplier (m : BitVec n) (k : Nat) :
    boothRecord m (initialRegs 0) k =
      { N := n, step := k + 1, before := initialRegs 0, action := .noOp, afterArith := initialRegs 0,
        afterShift := initialRegs 0 } := by
  simp only [boothRecord, boothRegs_initialRegs_zero, recode_pair_initialRegs_zero, decided_initialRegs_zero]

/-- Zero fits every width (R100). -/
theorem fits_zero (pos : 1 ≤ n) : Fits 0 n := by
  have bound : (0 : Int) < 2 ^ (n - 1) := by positivity
  exact fits_natCast_iff.mpr ⟨pos, by omega, by omega⟩

/-- A run with a zero multiplier computes 0, even with the most negative multiplicand (R175). -/
theorem State.afterCycles_product_of_zero_multiplier (s : State) (m : Int) (act : Action) (ab : BitVec n) :
    (s.afterCycles m 0 n n act ab).product = 0 := by
  rw [State.afterCycles_product, bv_zero, boothRegs_initialRegs_zero]
  simp [partialProduct, initialRegs]

end

/-- Settles O41: zero is never the most negative value, so `RUN 0, v` computes `0 * v`; with a zero
multiplier no cycle changes a register; the records of both runs are those of
`boothTrace`, one by one. -/
theorem zeroOperandsKeepTheAccumulatorZero : Obligations.ZeroOperandsKeepTheAccumulatorZero := by
  unfold Obligations.ZeroOperandsKeepTheAccumulatorZero
  intro v n s fits capacity
  have zero : Fits 0 n := fits_zero (Int.ofNat_le.mp fits.one_le)
  constructor
  · have other : (0 : Int) ≠ -2 ^ (n - 1) := (neg_ne_zero.mpr (by positivity)).symm
    obtain ⟨act, ab, run⟩ := exec_run_eq_mul (chooseWidth_some 0 v n s.FLOOR) capacity zero fits other
    rw [zero_mul] at run
    refine ⟨_, run, rfl, fun r hr => ?_⟩
    obtain ⟨k, -, rfl⟩ := List.mem_map.mp hr
    rw [bv_zero]
    exact boothRecord_of_zero_multiplicand (bv n v) k
  · obtain ⟨act, ab, run⟩ := exec_run_eq_afterCycles (chooseWidth_some v 0 n s.FLOOR) capacity fits zero
    rw [State.afterCycles_product_of_zero_multiplier] at run
    refine ⟨_, run, rfl, fun r hr => ?_⟩
    obtain ⟨k, -, rfl⟩ := List.mem_map.mp hr
    rw [bv_zero, boothRecord_of_zero_multiplier]
    exact ⟨rfl, rfl, rfl, rfl, rfl, rfl, rfl⟩

end Sys2Proof.Machine
end

section
/-! The run interface (spec/44_run_interface.md R180 to R184): `RUN` as the sequence it stands for and as a function of its operands and
the floor, `SETFLOOR`, and the commands that touch no register. -/

namespace Sys2Proof.Machine

/-! ## `RUN` and its expansion -/

/-- Settles O42, by what `START` and `RUN` come to side by side (`start_run_cases`): refused alike, raised alike, or begun and run to the
end, where the expansion is `execAll_expansion_eq_exec_run`. -/
theorem runIsItsExpansion : Obligations.RunIsItsExpansion := by
  unfold Obligations.RunIsItsExpansion
  intro m q b s
  obtain ⟨r, refused, same⟩ | ⟨v, -, -, raised, same⟩ | ⟨n, act, ab, -, hc, capacity, hm, hq, began, run⟩ :=
    start_run_cases m q b s
  · rw [refused, same]
    refine ⟨fun t started => ?_, fun _ started _ => started, fun _ => id⟩
    cases started
  · rw [same, raised]
    refine ⟨fun t started accepted => ?_, fun _ started _ => started, nofun⟩
    cases started
    cases accepted
  · rw [began]
    refine ⟨?_, ?_, nofun⟩
    · rintro _ ⟨⟩ -
      exact ⟨_, (execAll_expansion_eq_exec_run hc capacity hm hq).trans run, run⟩
    · rintro _ ⟨⟩ notOk
      exact absurd rfl notOk

/-! ## Determinism of `RUN` -/

/-- A completed `RUN` as the caller sees it: the answer, the phase and the error code it leaves, and the records it sent, which are the
trace it leaves (R182). -/
def RunShows (m q : Int) (b : Option Int) (s : State) (answer : Response) (ph : Phase) (err : ErrCode)
    (records : List Snapshot) : Prop :=
  ∃ t, exec (.run m q b) s = .next t ∧ t.rsp = some answer ∧ t.PH = ph ∧ t.ERR = err ∧ t.trace = records ∧
    t.emitted = s.emitted ++ records

section
variable {m q : Int} {b : Option Int} {s : State}

/-- A `RUN` that completes chose a supported width (R133). -/
theorem capacity_of_exec_run_eq_next {t : State} (h : exec (.run m q b) s = .next t) :
    exceedsCapacity s.NMAX (chooseWidth m q b s.FLOOR) = false := by
  refine Bool.eq_false_iff.mpr fun beyond => ?_
  rw [exec_run_eq_refused_iff.mpr ⟨rfl, beyond⟩] at h
  cases h

/-- A `RUN` whose operands do not both fit shows the exception on the first that does not (R132, R204). -/
theorem runShows_of_unfit {n : Int} (hc : chooseWidth m q b s.FLOOR = n) (capacity : exceedsCapacity s.NMAX n = false)
    (unfit : ¬ (Fits m n ∧ Fits q n)) :
    RunShows m q b s (.exception (if Fits m n then q else m) n) .fault .widthOverflow [] := by
  obtain ⟨v, first, second, raised⟩ := State.start_eq_raised hc capacity unfit
  have offender : v = if Fits m n then q else m := by
    split
    next fits => exact second fits
    next unfitM => exact first unfitM
  rw [← offender]
  have run : exec (.run m q b) s = .next ((s.enterFault v n).answer (.exception v n)) := by
    simp only [exec, execRun, raised]
  exact ⟨_, run, rfl, rfl, rfl, rfl, (List.append_nil _).symm⟩

/-- A `RUN` whose operands both fit shows Booth's records and the product of the registers they end in (R180, R183). -/
theorem runShows_of_fits {n : Nat} (hc : chooseWidth m q b s.FLOOR = n) (capacity : exceedsCapacity s.NMAX n = false)
    (hm : Fits m n) (hq : Fits q n) :
    RunShows m q b s (.value (.int (partialProduct (boothRegs (bv n m) (initialRegs (bv n q)) n) n))) .done .none
      (boothTrace (bv n m) (initialRegs (bv n q)) n) := by
  obtain ⟨act, ab, run⟩ := exec_run_eq_afterCycles hc capacity hm hq
  rw [State.afterCycles_product] at run
  exact ⟨_, run, rfl, if_pos rfl, rfl, rfl, rfl⟩

end

/-- Within the capacity a `RUN` shows the same in every state with that floor and capacity (R182). -/
theorem exists_forall_runShows {m q floor : Int} {b : Option Int} {nmax : Capacity}
    (capacity : exceedsCapacity nmax (chooseWidth m q b floor) = false) :
    ∃ answer ph err records, ∀ s : State, s.FLOOR = floor → s.NMAX = nmax → RunShows m q b s answer ph err records := by
  by_cases fits : Fits m (chooseWidth m q b floor) ∧ Fits q (chooseWidth m q b floor)
  · obtain ⟨hm, hq⟩ := fits
    obtain ⟨n, hc⟩ : ∃ n : Nat, chooseWidth m q b floor = n :=
      Int.eq_ofNat_of_zero_le (Int.le_of_lt hm.one_le)
    rw [hc] at capacity hm hq
    refine ⟨_, _, _, _, fun s hfloor hnmax => runShows_of_fits (n := n) ?_ ?_ hm hq⟩
    · rw [hfloor, hc]
    · rw [hnmax, capacity]
  · refine ⟨_, _, _, _, fun s hfloor hnmax => runShows_of_unfit (n := chooseWidth m q b floor) ?_ ?_ fits⟩
    · rw [hfloor]
    · rw [hnmax, capacity]

/-- Settles O44: whether `RUN` is refused depends on the floor and the capacity alone, and so does what a completed one shows
(`exists_forall_runShows`). -/
theorem runIsDeterministic : Obligations.RunIsDeterministic := by
  unfold Obligations.RunIsDeterministic
  intro m q b s s' hfloor hnmax
  refine ⟨fun t run => ?_, fun r refused => ?_⟩
  · obtain ⟨answer, ph, err, records, shows⟩ :=
      exists_forall_runShows (capacity_of_exec_run_eq_next run)
    obtain ⟨u, run₁, rsp, hph, herr, trace, emitted⟩ := shows s rfl rfl
    obtain ⟨t', run', rsp', hph', herr', trace', emitted'⟩ := shows s' hfloor.symm hnmax.symm
    obtain rfl : t = u := by
      rw [run] at run₁
      cases run₁
      rfl
    exact ⟨t', run', rsp'.trans rsp.symm, trace'.trans trace.symm, hph'.trans hph.symm, herr'.trans herr.symm,
      records, emitted, emitted'⟩
  · rw [exec_run_eq_refused_iff] at refused ⊢
    rw [← hfloor, ← hnmax]
    exact refused

/-! ## `SETFLOOR` -/

/-- A floor below 1 acts as 1, for every allotted width is at least 1 (R181). -/
theorem chooseWidth_none_of_floor_lt_one (m q : Int) {f : Int} (below : f < 1) :
    chooseWidth m q none f = chooseWidth m q none 1 := by
  have := one_le_minWidth m
  simp only [chooseWidth]
  omega

/-- With a floor above `NMAX` no automatic width is supported (R181). -/
theorem exceedsCapacity_of_lt_floor (m q : Int) {f : Int} {k : Nat} (pos : 0 < k) (above : (k : Int) < f) :
    exceedsCapacity (.upTo k pos) (chooseWidth m q none f) = true :=
  decide_eq_true (above.trans_le (le_max_left _ _))

/-- Settles O45: the automatic width is a maximum of which the floor is one term. -/
theorem setfloorWritesTheFloor : Obligations.SetfloorWritesTheFloor := by
  unfold Obligations.SetfloorWritesTheFloor
  intro f s
  refine ⟨_, rfl, rfl, fun m q below => chooseWidth_none_of_floor_lt_one m q below, fun m q k pos hk above => ?_⟩
  have exceeds : exceedsCapacity s.NMAX (chooseWidth m q none f) = true :=
    hk ▸ exceedsCapacity_of_lt_floor m q pos above
  exact ⟨exec_start_eq_refused_iff.mpr ⟨rfl, exceeds⟩, exec_run_eq_refused_iff.mpr ⟨rfl, exceeds⟩⟩

/-! ## The function units -/

/-- Settles O47, command by command: the answer is computed from the operands, and `State.answer` writes nothing else. -/
theorem functionUnitsTouchNoRegister : Obligations.FunctionUnitsTouchNoRegister := by
  unfold Obligations.FunctionUnitsTouchNoRegister
  rintro i (⟨v, w, rfl⟩ | ⟨b, rfl⟩ | ⟨b, rfl⟩ | ⟨v, rfl⟩ | ⟨vs, f, rfl⟩ | ⟨p, rfl⟩) wellFormed
  · cases encoded : encodeValue v w with
    | some b => exact ⟨_, exec_encode_of_some encoded⟩
    | none => exact ⟨_, exec_encode_of_none encoded⟩
  · exact ⟨_, exec_decode b⟩
  · exact ⟨_, exec_negate b⟩
  · exact ⟨_, exec_minwidth v⟩
  · have nonempty : vs ≠ [] := by
      rintro rfl
      cases wellFormed
    obtain ⟨k, selected, -⟩ := exists_selWidth_eq_some nonempty f
    exact ⟨_, exec_selwidth_of_some selected⟩
  · exact ⟨.value (.int (productOf p.high p.low)), fun _ => rfl⟩

end Sys2Proof.Machine
end

section
/-! Exceptions (spec/60_exceptions.md): which commands answer `WidthOverflow` (R200, R201), and how the block leaves phase `Fault` (R205). -/

namespace Sys2Proof.Machine

/-! ## Who raises -/

/-- The three ways a value can fail to fit a width (R106). -/
theorem not_fits_iff {v w : Int} : ¬ Fits v w ↔ w < 1 ∨ v < -2 ^ (w - 1).toNat ∨ 2 ^ (w - 1).toNat - 1 < v := by
  simp only [Fits, not_and_or, not_le]

/-- An `ENCODE` that answers the exception names its own operands, which do not fit (R106). -/
theorem exec_encode_exception {v w v' w' : Int} {s t : State} (h : exec (.encode v w) s = .next t)
    (raised : t.rsp = some (.exception v' w')) : ¬ Fits v w ∧ v' = v ∧ w' = w := by
  cases found : encodeValue v w with
  | some b =>
    rw [exec_encode_of_some found] at h
    cases h
    cases raised
  | none =>
    rw [exec_encode_of_none found] at h
    cases h
    cases raised
    have unfit : ¬ Fits v w := by
      rw [← encodeValue_isSome_iff, found]
      exact Bool.false_ne_true
    exact ⟨unfit, rfl, rfl⟩

/-- A `START` or `RUN` that answers the exception names an operand and the chosen width it does not fit (R132, R201). -/
theorem exec_start_or_run_exception {i : Instr} {m q v w : Int} {b : Option Int} {s t : State}
    (command : i = .start m q b ∨ i = .run m q b) (h : exec i s = .next t) (raised : t.rsp = some (.exception v w)) :
    ¬ Fits v w ∧ (v = m ∨ v = q) ∧ w = chooseWidth m q b s.FLOOR := by
  obtain ⟨r, start, run⟩ | ⟨u, unfit, operand, start, same⟩ | ⟨n, act, ab, -, -, -, -, -, start, run⟩ :=
    start_run_cases m q b s
  · obtain rfl | rfl := command
    · rw [start] at h; cases h
    · rw [run] at h; cases h
  · have answered := command.elim (fun hi => hi ▸ start) (fun hi => hi ▸ same.trans start)
    rw [answered] at h
    cases h
    cases raised
    exact ⟨unfit, operand, rfl⟩
  · obtain rfl | rfl := command
    · rw [start] at h; cases h; cases raised
    · rw [run] at h; cases h; cases raised

/-- Settles O51: by the kinds of answer of R72 only `ENCODE`, `START` and `RUN` can answer the exception, and each does so only on an
operand that does not fit. -/
theorem onlyEncodeStartAndRunRaise : Obligations.OnlyEncodeStartAndRunRaise := by
  unfold Obligations.OnlyEncodeStartAndRunRaise
  intro i s t v w command h raised
  have kind := answersAreOfTheKindTheCommandMapSays i s t h
  rw [← not_fits_iff]
  cases i with
  | encode v' w' =>
    obtain ⟨unfit, rfl, rfl⟩ := exec_encode_exception h raised
    exact ⟨unfit, .inl rfl⟩
  | start m q b =>
    obtain ⟨unfit, operand, width⟩ := exec_start_or_run_exception (.inl rfl) h raised
    exact ⟨unfit, .inr ⟨m, q, b, .inl rfl, operand, width⟩⟩
  | run m q b =>
    obtain ⟨unfit, operand, width⟩ := exec_start_or_run_exception (.inr rfl) h raised
    exact ⟨unfit, .inr ⟨m, q, b, .inr rfl, operand, width⟩⟩
  | decide | shift | cycle | setfloor => cases raised.symm.trans kind
  | result | decode | minwidth | selwidth | pdecode | negate =>
    obtain ⟨answer, answered⟩ := kind
    cases raised.symm.trans answered
  | sub | add | nop00 | nop11 => cases command

/-! ## Leaving `Fault` -/

/-- From `Fault` an effect stays there, or is an accepted `START` or `RUN`, which clears `ERR`: the sub-steps have other phases (R205). -/
theorem Effect.of_fault {s t : State} {i : Instr} (h : Effect s i t) (fault : s.PH = .fault)
    (err : s.ERR = .widthOverflow) :
    (t.PH = .fault ∧ t.ERR = .widthOverflow) ∨
    (∃ m q b, i = .start m q b ∧ t.PH = .deciding ∧ t.ERR = .none) ∨
    (∃ m q b, i = .run m q b ∧ t.PH = .done ∧ t.ERR = .none) := by
  cases h with
  | raised => exact .inl ⟨rfl, rfl⟩
  | began m q b => exact .inr (.inl ⟨m, q, b, rfl, rfl, rfl⟩)
  | completed m q b => exact .inr (.inr ⟨m, q, b, rfl, if_pos rfl, rfl⟩)
  | decided deciding | cycled deciding => cases fault.symm.trans deciding
  | shifted shifting => cases fault.symm.trans shifting
  | floorSet | answered | micro => exact .inl ⟨fault, err⟩

/-- Settles O52, by `Effect.of_fault` for a command; waiting changes nothing and reset ends in `Idle`. -/
theorem faultIsLeftOnlyByANewRunOrReset : Obligations.FaultIsLeftOnlyByANewRunOrReset := by
  unfold Obligations.FaultIsLeftOnlyByANewRunOrReset
  intro s t fault err h
  obtain ⟨-, rfl⟩ | ⟨rest, hp, rfl⟩ | ⟨c, rest, i, hp, hd, effect⟩ := step_effect h
  · exact .inl ⟨fault, err⟩
  · exact .inr (.inl ⟨rest, hp, rfl, rfl⟩)
  · obtain stays | ⟨m, q, b, rfl, left⟩ | ⟨m, q, b, rfl, left⟩ := effect.of_fault fault err
    · exact .inl stays
    · exact .inr (.inr (.inl ⟨c, rest, m, q, b, hp, hd, left⟩))
    · exact .inr (.inr (.inr ⟨c, rest, m, q, b, hp, hd, left⟩))

end Sys2Proof.Machine
end
